-- ==== Sys2Proof/Config.lean ====
section
/-! DEFINITION. What is fixed for this hardware and is not state (00_scope.md R5, R6), and the value
the model names where the spec leaves a parameter to the platform. The spec leaves no result undefined,
so there is no free value here. -/

namespace Sys2Proof.Config

/-- `WORD_BITS`, written W: the width of every memory word, of `pc` and of `rbo` (00_scope.md R5). -/
abbrev wordBits : Nat := 64

/-- The width of `finfo`: W + 1 bits, so that the exact sum of two Words fits (10_state.md R27). -/
abbrev infoBits : Nat := 65

/-- The largest `CAPACITY`: N ≤ 2^(W−1) − 4, so that every valid address, and `pc` plus the largest
width of an instruction, is a non-negative Word (00_scope.md R6). -/
def maxCapacity : Nat := 2 ^ 63 - 4

/-- The capacity of `State.reset`. `CAPACITY` is an argument of reset (70_reset_and_hazards.md R180);
this is the largest one the spec allows, the whole address space. DESIGN CHOICE, unsafe: log entry 1. -/
def resetCapacity : Nat := maxCapacity

end Sys2Proof.Config
end

