-- ==== Sys2Proof/Word.lean ====
section
/-! DEFINITION. The word type. A Word is a signed integer of W bits in two's complement (00_scope.md R8);
its value is `toInt`, and `wrap` brings an exact integer back to a Word. -/

namespace Sys2Proof

/-- A Word of W = 64 bits (00_scope.md R5, R8). -/
abbrev Word := BitVec 64

/-- The contents of `finfo`: a signed integer of W + 1 = 65 bits (10_state.md R27). -/
abbrev Info := BitVec 65

/-- `wrap(v)`: the one Word congruent to the integer v modulo 2^W (00_scope.md R8). -/
def wrap (v : Int) : Word := BitVec.ofInt 64 v

end Sys2Proof
end

