-- ==== Sys2Proof/Syntax.lean ====
section
/-! DEFINITION. The instructions as the decoder names them: one constructor for each row of the opcode
table (30_encoding.md R63). A decoded instruction is an operation kind with one addressing mode per
operand (R62); the operand words are not part of it, because they are read one by one while operands
are resolved (40_cycle_and_operands.md R82 to R84), after decoding has answered. -/

namespace Sys2Proof

/-- The three addressing modes (30_encoding.md R65). -/
inductive Mode where
  /-- digit 0: the operand word is an address -/
  | position
  /-- digit 1: the operand word is the value (for a destination: the address, 40_cycle_and_operands.md R86) -/
  | immediate
  /-- digit 2: the operand word plus `rbo` is an address -/
  | relative
deriving DecidableEq, Repr

/-- The role of an operand (30_encoding.md R64): a source is resolved to a value, a destination to a
location. -/
inductive Role where
  | source
  | destination
deriving DecidableEq, Repr

/-- The rows of the opcode table (30_encoding.md R63), each with the modes of its operands in order. -/
inductive Instr where
  /-- 1 ADD: source, source, destination (41_arithmetic.md R100) -/
  | add (m1 m2 m3 : Mode)
  /-- 2 MUL: source, source, destination (41_arithmetic.md R101) -/
  | mul (m1 m2 m3 : Mode)
  /-- 3 IN: destination (42_input_output.md R110) -/
  | inp (m1 : Mode)
  /-- 4 OUT: source (42_input_output.md R111) -/
  | out (m1 : Mode)
  /-- 5 JT: source (condition), source (target) (43_jumps.md R120) -/
  | jt (m1 m2 : Mode)
  /-- 6 JF: source (condition), source (target) (43_jumps.md R121) -/
  | jf (m1 m2 : Mode)
  /-- 7 LT: source, source, destination (44_compare.md R130) -/
  | lt (m1 m2 m3 : Mode)
  /-- 8 EQ: source, source, destination (44_compare.md R131) -/
  | eq (m1 m2 m3 : Mode)
  /-- 9 ARB: source (45_base_halt_illegal.md R140) -/
  | arb (m1 : Mode)
  /-- 99 HLT: no operand (45_base_halt_illegal.md R141) -/
  | hlt
  /-- ILLEGAL: the word w selects no instruction (45_base_halt_illegal.md R142). It keeps w, which the
  exception records in `finfo`. -/
  | illegal (w : Word)
deriving DecidableEq, Repr

end Sys2Proof
end

