-- ==== Sys2Proof/WellFormed.lean ====
section
/-! DEFINITION. Which terms of `Instr` stand for an instruction. Every mode is legal on every operand,
an immediate destination too (30_encoding.md R66), so only ILLEGAL carries a condition: its word must be
one that selects no instruction (R67, R68). -/

namespace Sys2Proof

/-- The ten opcode values (30_encoding.md R63). -/
def listedOpcodes : List Nat := [1, 2, 3, 4, 5, 6, 7, 8, 9, 99]

/-- A word that selects no instruction: a negative one (30_encoding.md R67), or a non-negative one whose
low two decimal digits are no listed opcode (R68). -/
def unrecognized (w : Word) : Bool :=
  decide (w.toInt < 0) || !(listedOpcodes.contains (w.toNat % 100))

/-- The instruction stands for at least one word. -/
def Instr.wellFormed : Instr → Bool
  | .illegal w => unrecognized w
  | .add _ _ _ => true
  | .mul _ _ _ => true
  | .inp _ => true
  | .out _ => true
  | .jt _ _ => true
  | .jf _ _ => true
  | .lt _ _ _ => true
  | .eq _ _ _ => true
  | .arb _ => true
  | .hlt => true

end Sys2Proof
end

