-- ==== Sys2Proof/Decode.lean ====
section
/-! DEFINITION. The decoder, a pure and total function of one word (30_encoding.md R73), and the encoder.
A word is read as a decimal numeral (00_scope.md R7), never as bit fields. -/

namespace Sys2Proof

/-! ### Decoding -/

/-- The word is no instruction and is rejected by name: an opcode of the table with a mode digit 3 to 9
on an operand it has (30_encoding.md R69). The Step that meets it raises IllegalMode
(60_exceptions.md R152). -/
inductive DecodeReject where
  | illegalMode (w : Word)
deriving DecidableEq, Repr

/-- `digit(v, k)`: decimal digit k of v, the units digit being k = 0 (00_scope.md R7). -/
def digit (v k : Nat) : Nat := v / 10 ^ k % 10

/-- The mode a digit stands for, if any (30_encoding.md R65). -/
def Mode.ofDigit (d : Nat) : Option Mode :=
  if d = 0 then some .position
  else if d = 1 then some .immediate
  else if d = 2 then some .relative
  else none

/-- The mode of operand i of the non-negative word v: `rest <- v div 100`, then decimal digit i − 1 of
`rest` (30_encoding.md R62); an absent digit is 0, position. -/
def operandMode (v i : Nat) : Option Mode := Mode.ofDigit (digit (v / 100) (i - 1))

/-- The modes of an instruction of one operand. -/
def decode1 (w : Word) (k : Mode → Instr) : Except DecodeReject Instr :=
  match operandMode w.toNat 1 with
  | some m1 => .ok (k m1)
  | none => .error (.illegalMode w)

/-- The modes of an instruction of two operands. -/
def decode2 (w : Word) (k : Mode → Mode → Instr) : Except DecodeReject Instr :=
  match operandMode w.toNat 1, operandMode w.toNat 2 with
  | some m1, some m2 => .ok (k m1 m2)
  | _, _ => .error (.illegalMode w)

/-- The modes of an instruction of three operands. -/
def decode3 (w : Word) (k : Mode → Mode → Mode → Instr) : Except DecodeReject Instr :=
  match operandMode w.toNat 1, operandMode w.toNat 2, operandMode w.toNat 3 with
  | some m1, some m2, some m3 => .ok (k m1 m2 m3)
  | _, _, _ => .error (.illegalMode w)

/-- The opcode table: what the non-negative word w stands for, by its opcode `w mod 100`
(30_encoding.md R63, R68). -/
def decodeOpcode (w : Word) : Nat → Except DecodeReject Instr
  | 1 => decode3 w .add
  | 2 => decode3 w .mul
  | 3 => decode1 w .inp
  | 4 => decode1 w .out
  | 5 => decode2 w .jt
  | 6 => decode2 w .jf
  | 7 => decode3 w .lt
  | 8 => decode3 w .eq
  | 9 => decode1 w .arb
  | 99 => .ok .hlt
  | _ => .ok (.illegal w)

/-- Decode one word (30_encoding.md R62, R63, R67 to R70). A negative word is ILLEGAL before any digit is
taken (R67), so `toNat` is the value of the word wherever a digit is taken. -/
def decode (w : Word) : Except DecodeReject Instr :=
  if w.toInt < 0 then .ok (.illegal w) else decodeOpcode w (w.toNat % 100)

/-- The instruction the decoder reads from a table row's bits. Bit 0 is the least significant bit of the
first word, and every bit above `nbits` is 0; the first word, the only one decoding reads
(30_encoding.md R73), is the low 64 bits. -/
def decodeTableWord (nbits w : Nat) : Option Instr :=
  match decode (BitVec.ofNat 64 (w % 2 ^ nbits)) with
  | .ok i => some i
  | .error _ => none

/-! ### Operands of a decoded instruction -/

/-- The modes of the operands, in order: "an ordered list of per-operand addressing modes"
(30_encoding.md R62). -/
def Instr.modes : Instr → List Mode
  | .add m1 m2 m3 => [m1, m2, m3]
  | .mul m1 m2 m3 => [m1, m2, m3]
  | .inp m1 => [m1]
  | .out m1 => [m1]
  | .jt m1 m2 => [m1, m2]
  | .jf m1 m2 => [m1, m2]
  | .lt m1 m2 m3 => [m1, m2, m3]
  | .eq m1 m2 m3 => [m1, m2, m3]
  | .arb m1 => [m1]
  | .hlt => []
  | .illegal _ => []

/-- The roles of the operands, in order (30_encoding.md R64). -/
def Instr.roles : Instr → List Role
  | .add _ _ _ => [.source, .source, .destination]
  | .mul _ _ _ => [.source, .source, .destination]
  | .inp _ => [.destination]
  | .out _ => [.source]
  | .jt _ _ => [.source, .source]
  | .jf _ _ => [.source, .source]
  | .lt _ _ _ => [.source, .source, .destination]
  | .eq _ _ _ => [.source, .source, .destination]
  | .arb _ => [.source]
  | .hlt => []
  | .illegal _ => []

/-- The opcode value; ILLEGAL has none (30_encoding.md R63). -/
def Instr.opcode : Instr → Option Nat
  | .add _ _ _ => some 1
  | .mul _ _ _ => some 2
  | .inp _ => some 3
  | .out _ => some 4
  | .jt _ _ => some 5
  | .jf _ _ => some 6
  | .lt _ _ _ => some 7
  | .eq _ _ _ => some 8
  | .arb _ => some 9
  | .hlt => some 99
  | .illegal _ => none

/-- The operand count, a function of the opcode alone (30_encoding.md R64). -/
def operandCountOf (opcode : Nat) : Nat :=
  if opcode = 99 then 0
  else if opcode = 3 ∨ opcode = 4 ∨ opcode = 9 then 1
  else if opcode = 5 ∨ opcode = 6 then 2
  else 3

/-! ### Encoding -/

/-- The digit of a mode (30_encoding.md R65). -/
def Mode.digit : Mode → Nat
  | .position => 0
  | .immediate => 1
  | .relative => 2

/-- `opcode + 100*m1 + 1000*m2 + 10000*m3`, as a word (30_encoding.md R61). -/
def composite (opcode d1 d2 d3 : Nat) : Word :=
  BitVec.ofNat 64 (opcode + 100 * d1 + 1000 * d2 + 10000 * d3)

/-- The instruction word the assembler emits: all digits no operand uses are 0 (30_encoding.md R61, R74).
An ILLEGAL instruction stands for its own word. -/
def encode : Instr → Word
  | .add m1 m2 m3 => composite 1 m1.digit m2.digit m3.digit
  | .mul m1 m2 m3 => composite 2 m1.digit m2.digit m3.digit
  | .inp m1 => composite 3 m1.digit 0 0
  | .out m1 => composite 4 m1.digit 0 0
  | .jt m1 m2 => composite 5 m1.digit m2.digit 0
  | .jf m1 m2 => composite 6 m1.digit m2.digit 0
  | .lt m1 m2 m3 => composite 7 m1.digit m2.digit m3.digit
  | .eq m1 m2 m3 => composite 8 m1.digit m2.digit m3.digit
  | .arb m1 => composite 9 m1.digit 0 0
  | .hlt => composite 99 0 0 0
  | .illegal w => w

/-- The words of an instruction in memory: the instruction word, then one operand word for each operand
(30_encoding.md R60); none if the number of operand words is not the operand count, or the instruction
is ILLEGAL, which has no length (R72). -/
def assemble (i : Instr) (operands : List Word) : Option (List Word) :=
  match i with
  | .illegal _ => none
  | _ => if operands.length = i.modes.length then some (encode i :: operands) else none

end Sys2Proof
end

