-- ==== Sys2Proof/Machine/State.lean ====
section
/-! DEFINITION. The state of the machine as plain data: the seven pieces of architectural state of
10_state.md R20, the capacity that reset fixes, and the two ports' environment, which the spec makes an
argument of the step relation (R30) and a step that is a function of the state must read from it. -/

namespace Sys2Proof.Machine

/-- A listed memory word: its index and its contents. The spec's memory is a sequence of words, and a
model must not expose bytes (20_memory.md R41; log entry 7). -/
abbrev WordCell := Nat × Word

/-- `M`, "an ordered, fixed-capacity sequence of signed integers" (10_state.md R28). `capacity` is N; the
listed cells are the words that are not 0, in rising order of index, and an unlisted word reads 0
(20_memory.md R46). The canonical form is `Memory.wf`. -/
structure Memory where
  capacity : Nat
  cells : List WordCell
deriving DecidableEq, Repr

/-- `state`, the execution state (10_state.md R25): Running = 0, Halted = 1. -/
inductive RunState where
  | running
  | halted
deriving DecidableEq, Repr

/-- `cause` (10_state.md R27, 60_exceptions.md R150), codes 0 to 5 in this order. -/
inductive Cause where
  | none
  | illegalOpcode
  | addressOutOfRange
  | illegalMode
  | inputFailure
  | outputFailure
deriving DecidableEq, Repr

/-- The five exceptions with what each records (60_exceptions.md R150). -/
inductive Trap where
  /-- the word at `pc` selects no instruction -/
  | illegalOpcode (w : Word)
  /-- an access outside 0 to N − 1, with its exact address (20_memory.md R44, R55) -/
  | addressOutOfRange (a : Int)
  /-- the word at `pc` has a mode digit 3 to 9 on an operand it uses -/
  | illegalMode (w : Word)
  /-- the input port cannot produce a value -/
  | inputFailure
  /-- the output port cannot accept a value -/
  | outputFailure
deriving DecidableEq, Repr

/-- The answers of the input port to `Input()` (00_scope.md R13). -/
inductive InputAnswer where
  | value (v : Word)
  | notYet
  | failure
deriving DecidableEq, Repr

/-- The answers of the output port to `Output(v)` (00_scope.md R13). -/
inductive OutputAnswer where
  | accepted
  | notYet
  | failure
deriving DecidableEq, Repr

/-- INPUT, the source behind the input port, as plain data (10_state.md R30; log entry 3): the answers to
come in order, the answer given for ever once they are used up, and the number of Words consumed so far
(70_reset_and_hazards.md R187). -/
structure Source where
  answers : List InputAnswer
  rest : InputAnswer
  consumed : Nat
deriving DecidableEq, Repr

/-- OUTPUT, the sink behind the output port, as plain data (10_state.md R30; log entry 3): the answers to
come in order, the answer given for ever once they are used up, and the Words accepted so far, the first
one first (70_reset_and_hazards.md R187). -/
structure Sink where
  answers : List OutputAnswer
  rest : OutputAnswer
  accepted : List Word
deriving DecidableEq, Repr

/-- The state (10_state.md R20). -/
structure State where
  /-- the program counter, any Word (10_state.md R22, R23) -/
  pc : Word
  /-- the relative base offset, any Word (10_state.md R24) -/
  rbo : Word
  /-- the memory `M` and its capacity N (10_state.md R28) -/
  mem : Memory
  /-- `state`: Running or Halted (10_state.md R25) -/
  run : RunState
  /-- `err`, the error flag (10_state.md R26) -/
  err : Bool
  /-- `cause`, the exception recorded (10_state.md R27) -/
  cause : Cause
  /-- `finfo`, signed, W + 1 bits (10_state.md R27) -/
  finfo : Info
  /-- environment: the source behind the input port (10_state.md R30) -/
  source : Source
  /-- environment: the sink behind the output port (10_state.md R30) -/
  sink : Sink
deriving DecidableEq, Repr

/-- The faults of a step: there are none. Every error of this machine is an exception whose entry the
spec describes (60_exceptions.md R158) and which the model takes, and a stall is neither an exception nor
a halt (40_cycle_and_operands.md R91). No constructor, so nothing raises one (log entry 12). -/
inductive Fault where
deriving DecidableEq, Repr

/-- The refusals of a step. -/
inductive Refusal where
  /-- An instruction with no meaning yet. Only an arm of `exec` may answer so, and none does: safe. -/
  | notModelled (mnemonic : String)
deriving DecidableEq, Repr

/-- The state right after reset (10_state.md R33, 70_reset_and_hazards.md R180) with the empty PROGRAM:
the capacity and the two ports are arguments of reset, and the values here are the model's
(DESIGN CHOICE, unsafe: log entries 1 and 2). Reset with any arguments is `construct`. -/
def State.reset : State where
  pc := 0
  rbo := 0
  mem := { capacity := Config.resetCapacity, cells := [] }
  run := .running
  err := false
  cause := .none
  finfo := 0
  source := { answers := [], rest := .notYet, consumed := 0 }
  sink := { answers := [], rest := .accepted, accepted := [] }

end Sys2Proof.Machine
end

