-- ==== Sys2Proof/Machine/Ops.lean ====
section
/-! DEFINITION. The named operations over memory, the registers and the two ports, and taking an
exception. There is no return from an exception (60_exceptions.md R160): only reset leaves Halted. -/

namespace Sys2Proof.Machine

/-! ### Memory -/

/-- The contents of index a in a list of cells; an unlisted index reads 0 (20_memory.md R46). -/
def lookup (a : Nat) : List WordCell → Word
  | [] => 0
  | (b, v) :: rest => if a = b then v else lookup a rest

/-- The cells without any entry for index a. -/
def dropCell (a : Nat) (cells : List WordCell) : List WordCell :=
  cells.filter fun c => decide (c.1 ≠ a)

/-- Put an entry for index a before the first entry of a higher index. -/
def placeCell (a : Nat) (v : Word) : List WordCell → List WordCell
  | [] => [(a, v)]
  | (b, w) :: rest => if a < b then (a, v) :: (b, w) :: rest else (b, w) :: placeCell a v rest

/-- The cells with index a holding v: no entry at all for the 0 an unlisted index reads as. -/
def putCell (a : Nat) (v : Word) (cells : List WordCell) : List WordCell :=
  if v = 0 then dropCell a cells else placeCell a v (dropCell a cells)

/-- The cells are in canonical form from index lo on: strictly rising indices, each below the capacity n,
and no entry equal to what an unlisted index reads as. -/
def cellsWf (n : Nat) : Nat → List WordCell → Bool
  | _, [] => true
  | lo, (a, v) :: rest => decide (lo ≤ a) && decide (a < n) && decide (v ≠ 0) && cellsWf n (a + 1) rest

/-- The canonical form of memory: equal memories are equal data. -/
def Memory.wf (m : Memory) : Bool := cellsWf m.capacity 0 m.cells

/-- `M[a]` (00_scope.md R10). -/
def Memory.word (m : Memory) (a : Nat) : Word := lookup a m.cells

/-- `M[a] <- v` (00_scope.md R10). -/
def Memory.setWord (m : Memory) (a : Nat) (v : Word) : Memory :=
  { m with cells := putCell a v m.cells }

/-- The bounds check of every access: 0 ≤ a < N, with a an exact integer (20_memory.md R44, R55). -/
def Memory.inRange (m : Memory) (a : Int) : Bool := decide (0 ≤ a) && decide (a < m.capacity)

/-- `MemRead(a, 1)` (00_scope.md R11). -/
def Memory.memRead (m : Memory) (a : Int) : Except Trap Word :=
  if m.inRange a then .ok (m.word a.toNat) else .error (.addressOutOfRange a)

/-- `MemWrite(a, 1, v)` (00_scope.md R11). -/
def Memory.memWrite (m : Memory) (a : Int) (v : Word) : Except Trap Memory :=
  if m.inRange a then .ok (m.setWord a.toNat v) else .error (.addressOutOfRange a)

/-- The canonical cells of a list of words laid out from index a on. -/
def imageCells : Nat → List Word → List WordCell
  | _, [] => []
  | a, w :: rest => if w = 0 then imageCells (a + 1) rest else (a, w) :: imageCells (a + 1) rest

/-- Store a list of words at indices a, a + 1, and so on. -/
def Memory.setWords (m : Memory) (a : Nat) : List Word → Memory
  | [] => m
  | w :: rest => (m.setWord a w).setWords (a + 1) rest

/-! ### Registers -/

/-- `pc <- target` (00_scope.md R10). -/
def State.setPc (s : State) (target : Word) : State := { s with pc := target }

/-- `rbo <- v`. -/
def State.setRbo (s : State) (v : Word) : State := { s with rbo := v }

/-- Replace the memory. -/
def State.setMem (s : State) (m : Memory) : State := { s with mem := m }

/-- Replace the source behind the input port. -/
def State.setSource (s : State) (q : Source) : State := { s with source := q }

/-- Replace the sink behind the output port. -/
def State.setSink (s : State) (q : Sink) : State := { s with sink := q }

/-- `state <- Halted` (45_base_halt_illegal.md R141). -/
def State.halt (s : State) : State := { s with run := .halted }

/-- The default advance of `pc` past an instruction of c operands: `pc + 1 + c`, an exact sum
(40_cycle_and_operands.md R89); with N ≤ 2^(W−1) − 4 it fits a Word (10_state.md R23). -/
def State.advance (s : State) (c : Nat) : State := s.setPc (wrap (s.pc.toInt + 1 + c))

/-! ### Exceptions -/

/-- The cause an exception records (60_exceptions.md R150). -/
def Trap.cause : Trap → Cause
  | .illegalOpcode _ => .illegalOpcode
  | .addressOutOfRange _ => .addressOutOfRange
  | .illegalMode _ => .illegalMode
  | .inputFailure => .inputFailure
  | .outputFailure => .outputFailure

/-- The information an exception records: the instruction word, the exact address, or 0
(60_exceptions.md R150). -/
def Trap.info : Trap → Int
  | .illegalOpcode w => w.toInt
  | .addressOutOfRange a => a
  | .illegalMode w => w.toInt
  | .inputFailure => 0
  | .outputFailure => 0

/-- The W + 1 bits of `finfo` that hold an integer (10_state.md R27). -/
def infoOf (v : Int) : Info := BitVec.ofInt 65 v

/-- Taking an exception, `raise` (00_scope.md R12, 60_exceptions.md R158): `state <- Halted`, `err <- 1`,
`cause <- code`, `finfo <- info`; `pc`, `rbo`, memory and both ports are as before the Step. -/
def State.raise (s : State) (e : Trap) : State :=
  { s with run := .halted, err := true, cause := e.cause, finfo := infoOf e.info }

/-! ### Ports -/

/-- What the input port answers now (00_scope.md R13). -/
def Source.answer (q : Source) : InputAnswer :=
  match q.answers with
  | [] => q.rest
  | x :: _ => x

/-- The source after an answer that was not-yet: nothing is consumed (40_cycle_and_operands.md R91). -/
def Source.waited (q : Source) : Source := { q with answers := q.answers.tail }

/-- The source after it delivered a value: exactly one is consumed (42_input_output.md R110). -/
def Source.delivered (q : Source) : Source :=
  { q with answers := q.answers.tail, consumed := q.consumed + 1 }

/-- What the output port answers now (00_scope.md R13). -/
def Sink.answer (q : Sink) : OutputAnswer :=
  match q.answers with
  | [] => q.rest
  | x :: _ => x

/-- The sink after an answer that was not-yet: nothing is produced (40_cycle_and_operands.md R91). -/
def Sink.waited (q : Sink) : Sink := { q with answers := q.answers.tail }

/-- The sink after it accepted v: exactly one value is produced (42_input_output.md R111). -/
def Sink.took (q : Sink) (v : Word) : Sink :=
  { q with answers := q.answers.tail, accepted := q.accepted ++ [v] }

/-! ### How a Step of a running machine ends -/

/-- The ways an instruction can end (40_cycle_and_operands.md R80); the fourth way, the no-op of a Halted
machine, is the cycle's. -/
inductive Ending where
  /-- the instruction completed -/
  | completed (t : State)
  /-- the port answered not-yet: the machine is as it was, and only the environment moved on (R91) -/
  | stalled (t : State)
  /-- the instruction raised an exception -/
  | raised (e : Trap)
deriving DecidableEq, Repr

/-- The next state an ending leaves. A stall is a step that changes nothing of the machine; it is never a
completed Step nor a fault (40_cycle_and_operands.md R91, 70_reset_and_hazards.md R188; log entry 4). -/
def Ending.outcome (s : State) : Ending → Host.Outcome State Fault Refusal
  | .completed t => .next t
  | .stalled t => .next t
  | .raised e => .next (s.raise e)

/-- The outcome of an instruction: the first exception met while operands are resolved ends the Step
(40_cycle_and_operands.md R87). -/
def conclude (s : State) : Except Trap Ending → Host.Outcome State Fault Refusal
  | .ok e => e.outcome s
  | .error e => (Ending.raised e).outcome s

end Sys2Proof.Machine
end

