-- ==== Sys2Proof/Machine/Flags.lean ====
section
/-! DEFINITION. The machine has no condition codes (10_state.md R31): LT and EQ compute a truth word, and
JT and JF test a word against zero. Those stand here, with the codes of the status bits (10_state.md R25
to R27). -/

namespace Sys2Proof.Machine

/-- The Word 1 for true and 0 for false, never any other value (44_compare.md R132). -/
def truthWord (b : Bool) : Word := if b then 1 else 0

/-- LT's result: the signed order of the two Words (44_compare.md R130, R132). -/
def lessThan (a b : Word) : Word := truthWord (decide (a.toInt < b.toInt))

/-- EQ's result: identity of values (44_compare.md R131, R132). -/
def equals (a b : Word) : Word := truthWord (decide (a = b))

/-- JT and JF take every non-zero Word as true (44_compare.md R132). -/
def isTrue (a : Word) : Bool := decide (a ≠ 0)

/-- The bit of `state`: Running = 0, Halted = 1 (10_state.md R25). -/
def RunState.code : RunState → BitVec 1
  | .running => 0
  | .halted => 1

/-- The bit of `err` (10_state.md R26). -/
def errCode (err : Bool) : BitVec 1 := if err then 1 else 0

/-- The 3 bits of `cause` (60_exceptions.md R150). -/
def Cause.code : Cause → BitVec 3
  | .none => 0
  | .illegalOpcode => 1
  | .addressOutOfRange => 2
  | .illegalMode => 3
  | .inputFailure => 4
  | .outputFailure => 5

end Sys2Proof.Machine
end

