-- ==== Sys2Proof/Machine/Alu.lean ====
section
/-! DEFINITION. The adder and the multiplier of the integer ALU: the exact result, then wrapped to a
Word, with no flag and no exception (41_arithmetic.md R102). -/

namespace Sys2Proof.Machine

/-- `wrap(a + b)` (41_arithmetic.md R100, R102; also ARB's adder, 45_base_halt_illegal.md R140). -/
def addWords (a b : Word) : Word := wrap (a.toInt + b.toInt)

/-- `wrap(a * b)` (41_arithmetic.md R101, R102). -/
def mulWords (a b : Word) : Word := wrap (a.toInt * b.toInt)

end Sys2Proof.Machine
end

