-- ==== Sys2Proof/Machine/Operands.lean ====
section
/-! DEFINITION. The operand resolver (40_cycle_and_operands.md R84 to R87): the raw word, the value of a
source and the location of a destination, in every addressing mode, with exact addresses
(20_memory.md R55). -/

namespace Sys2Proof.Machine

/-- `Raw(i)`: the word at `pc + i` (40_cycle_and_operands.md R84). -/
def State.rawWord (s : State) (i : Nat) : Except Trap Word := s.mem.memRead (s.pc.toInt + i)

/-- `Val(i)`: the value of source operand i (40_cycle_and_operands.md R85). -/
def State.sourceValue (s : State) (i : Nat) (m : Mode) : Except Trap Word := do
  let r ← s.rawWord i
  match m with
  | .position => s.mem.memRead r.toInt
  | .immediate => .ok r
  | .relative => s.mem.memRead (r.toInt + s.rbo.toInt)

/-- The address a destination operand names: its raw word, plus `rbo` in relative mode; immediate mode is
position mode (40_cycle_and_operands.md R86). -/
def State.targetAddress (s : State) (r : Word) : Mode → Int
  | .position => r.toInt
  | .immediate => r.toInt
  | .relative => r.toInt + s.rbo.toInt

/-- The bounds check of a location, made at once (40_cycle_and_operands.md R86). -/
def State.checkedLocation (s : State) (t : Int) : Except Trap Int :=
  if s.mem.inRange t then .ok t else .error (.addressOutOfRange t)

/-- `Loc(i)`: the location of destination operand i; the word at the location is not read
(40_cycle_and_operands.md R86). -/
def State.targetLocation (s : State) (i : Nat) (m : Mode) : Except Trap Int := do
  let r ← s.rawWord i
  s.checkedLocation (s.targetAddress r m)

end Sys2Proof.Machine
end

