-- ==== Sys2Proof/Machine/Forms.lean ====
section
/-! DEFINITION. The two instruction shapes several rows share: compute from two sources and store, and a
conditional jump. Both resolve their operands in order and commit after every check
(40_cycle_and_operands.md R87, R88). -/

namespace Sys2Proof.Machine

/-- a = Val(1), b = Val(2), t = Loc(3); then `M[t] <- result a b` and `pc + 4`
(40_cycle_and_operands.md R92). -/
def computeStore (result : Word → Word → Word) (m1 m2 m3 : Mode) (s : State) : Except Trap Ending := do
  let a ← s.sourceValue 1 m1
  let b ← s.sourceValue 2 m2
  let t ← s.targetLocation 3 m3
  let mem ← s.mem.memWrite t (result a b)
  .ok (.completed ((s.setMem mem).advance 3))

/-- a = Val(1), b = Val(2), both always resolved; then `pc` is b if the jump is taken, else `pc + 3`
(40_cycle_and_operands.md R87, R89; 43_jumps.md R122). -/
def conditionalJump (taken : Word → Bool) (m1 m2 : Mode) (s : State) : Except Trap Ending := do
  let a ← s.sourceValue 1 m1
  let b ← s.sourceValue 2 m2
  .ok (.completed (if taken a then s.setPc b else s.advance 2))

end Sys2Proof.Machine
end

