-- ==== Sys2Proof/Machine/Arithmetic.lean ====
section
/-! DEFINITION. ADD and MUL (41_arithmetic.md). -/

namespace Sys2Proof.Machine

/-- ADD (41_arithmetic.md R100). -/
def execAdd (m1 m2 m3 : Mode) (s : State) : Host.Outcome State Fault Refusal :=
  conclude s (computeStore addWords m1 m2 m3 s)

/-- MUL (41_arithmetic.md R101). -/
def execMul (m1 m2 m3 : Mode) (s : State) : Host.Outcome State Fault Refusal :=
  conclude s (computeStore mulWords m1 m2 m3 s)

end Sys2Proof.Machine
end

