-- ==== Sys2Proof/Machine/BaseHalt.lean ====
section
/-! DEFINITION. ARB, HLT and the unrecognized opcode (45_base_halt_illegal.md). -/

namespace Sys2Proof.Machine

/-- ARB: `rbo <- wrap(rbo + a)`, the operand read through the old `rbo` (45_base_halt_illegal.md R140). -/
def execArb (m1 : Mode) (s : State) : Host.Outcome State Fault Refusal :=
  conclude s do
    let a ← s.sourceValue 1 m1
    .ok (.completed ((s.setRbo (addWords s.rbo a)).advance 1))

/-- HLT: `state <- Halted`, and `pc` advances by the width 1 (45_base_halt_illegal.md R141). -/
def execHlt (s : State) : Host.Outcome State Fault Refusal :=
  conclude s (.ok (.completed (s.halt.advance 0)))

/-- ILLEGAL: raises IllegalOpcode(w) and reads no operand (45_base_halt_illegal.md R142). -/
def execIllegal (w : Word) (s : State) : Host.Outcome State Fault Refusal :=
  conclude s (.ok (.raised (.illegalOpcode w)))

end Sys2Proof.Machine
end

