-- ==== Sys2Proof/Machine/Compare.lean ====
section
/-! DEFINITION. LT and EQ (44_compare.md). -/

namespace Sys2Proof.Machine

/-- LT (44_compare.md R130). -/
def execLt (m1 m2 m3 : Mode) (s : State) : Host.Outcome State Fault Refusal :=
  conclude s (computeStore lessThan m1 m2 m3 s)

/-- EQ (44_compare.md R131). -/
def execEq (m1 m2 m3 : Mode) (s : State) : Host.Outcome State Fault Refusal :=
  conclude s (computeStore equals m1 m2 m3 s)

end Sys2Proof.Machine
end

