-- ==== Sys2Proof/Machine/InputOutput.lean ====
section
/-! DEFINITION. IN and OUT (42_input_output.md). The port is asked only after the address checks, as part
of the commit (40_cycle_and_operands.md R88). -/

namespace Sys2Proof.Machine

/-- IN once its location t is known: ask the port; a value is written to `M[t]` unchanged
(42_input_output.md R110). -/
def inputTo (t : Int) (s : State) : Except Trap Ending :=
  match s.source.answer with
  | .value v => do
    let mem ← s.mem.memWrite t v
    .ok (.completed (((s.setMem mem).setSource s.source.delivered).advance 1))
  | .notYet => .ok (.stalled (s.setSource s.source.waited))
  | .failure => .error .inputFailure

/-- OUT once its value a is known: offer it to the port (42_input_output.md R111). -/
def outputOf (a : Word) (s : State) : Except Trap Ending :=
  match s.sink.answer with
  | .accepted => .ok (.completed ((s.setSink (s.sink.took a)).advance 1))
  | .notYet => .ok (.stalled (s.setSink s.sink.waited))
  | .failure => .error .outputFailure

/-- IN (42_input_output.md R110). -/
def execIn (m1 : Mode) (s : State) : Host.Outcome State Fault Refusal :=
  conclude s do
    let t ← s.targetLocation 1 m1
    inputTo t s

/-- OUT (42_input_output.md R111). -/
def execOut (m1 : Mode) (s : State) : Host.Outcome State Fault Refusal :=
  conclude s do
    let a ← s.sourceValue 1 m1
    outputOf a s

end Sys2Proof.Machine
end

