-- ==== Sys2Proof/Machine/Jump.lean ====
section
/-! DEFINITION. JT and JF (43_jumps.md), the only control transfers (R122). -/

namespace Sys2Proof.Machine

/-- JT: taken if operand 1 is not 0 (43_jumps.md R120). -/
def execJt (m1 m2 : Mode) (s : State) : Host.Outcome State Fault Refusal :=
  conclude s (conditionalJump isTrue m1 m2 s)

/-- JF: taken if operand 1 is 0 (43_jumps.md R121). -/
def execJf (m1 m2 : Mode) (s : State) : Host.Outcome State Fault Refusal :=
  conclude s (conditionalJump (fun a => !isTrue a) m1 m2 s)

end Sys2Proof.Machine
end

