-- ==== Sys2Proof/Machine/Cycle.lean ====
section
/-! DEFINITION. The instruction cycle (40_cycle_and_operands.md R80 to R83): fetch, decode, execute. -/

namespace Sys2Proof.Machine

/-- Fetch the word at `pc` and decode it (40_cycle_and_operands.md R82, R83); the exceptions of the two
come in this order (60_exceptions.md R157). -/
def State.fetchDecode (s : State) : Except Trap Instr := do
  let w ← s.mem.memRead s.pc.toInt
  match decode w with
  | .ok i => .ok i
  | .error (.illegalMode v) => .error (.illegalMode v)

/-- One Step (40_cycle_and_operands.md R80): a no-op when Halted (R81). -/
def cycle (s : State) : Host.Outcome State Fault Refusal :=
  match s.run with
  | .halted => .next s
  | .running =>
    match s.fetchDecode with
    | .ok i => exec i s
    | .error e => .next (s.raise e)

/-- The four words of the longest instruction, cut from a number whose bit 0 is bit 0 of the first
word. -/
def instructionWords (v : Nat) : List Word :=
  [BitVec.ofNat 64 v, BitVec.ofNat 64 (v / 2 ^ 64), BitVec.ofNat 64 (v / 2 ^ 128),
    BitVec.ofNat 64 (v / 2 ^ 192)]

/-- Store four words where the next Step fetches, and make that Step a fetch: Running with no fault
recorded, and room for the words at `pc`, else at index 0 in a memory of at least four words
(log entry 8). -/
def State.placeAtFetch (s : State) (words : List Word) : State :=
  let fits := decide (0 ≤ s.pc.toInt) && decide (s.pc.toInt + 4 ≤ s.mem.capacity)
  let at' : Nat := if fits then s.pc.toNat else 0
  let mem : Memory := { s.mem with capacity := if fits then s.mem.capacity else max s.mem.capacity 4 }
  let t := (s.setMem (mem.setWords at' words)).setPc (BitVec.ofNat 64 at')
  match s.run with
  | .running => t
  | .halted => { t with run := .running, err := false, cause := .none, finfo := 0 }

end Sys2Proof.Machine
end

