-- ==== Sys2Proof/Machine/Step.lean ====
section
/-! DEFINITION. One Step, and placing an instruction where the next Step fetches it. -/

namespace Sys2Proof.Machine

/-- `Step()` (40_cycle_and_operands.md R80). -/
def step (s : State) : Host.Outcome State Fault Refusal := cycle s

/-- s with the instruction whose bits are w, the bits above nbits zero, stored where `step` fetches its
next instruction (log entry 8). -/
def State.withFetchWord (s : State) (nbits w : Nat) : State :=
  s.placeAtFetch (instructionWords (w % 2 ^ nbits))

end Sys2Proof.Machine
end

