-- ==== Sys2Proof/Machine/Transactions.lean ====
section
/-! DEFINITION. The transactions of the host (60_exceptions.md R167), each between Steps
(00_scope.md R14): reset, run, read status, read memory, supply input, take output. `step` is the
transaction Step. The host has no other way to write the state (R168). -/

namespace Sys2Proof.Machine

/-- Reset, the document's Construct (70_reset_and_hazards.md R180): the arguments are N, PROGRAM and the
bindings of the two ports. Refused if PROGRAM is longer than N or N is above the bound of 00_scope.md R6
(R181). -/
def construct (n : Nat) (program : List Word) (source : Source) (sink : Sink) : Option State :=
  if program.length ≤ n ∧ n ≤ Config.maxCapacity then
    some { pc := 0, rbo := 0, mem := { capacity := n, cells := imageCells 0 program }, run := .running,
           err := false, cause := .none, finfo := 0, source := source, sink := sink }
  else none

/-- Reset of an existing block, in any state: Construct again, and what the source and the sink still hold
is not touched (70_reset_and_hazards.md R182; log entry 11). -/
def State.resetAgain (s : State) (n : Nat) (program : List Word) : Option State :=
  construct n program s.source s.sink

/-- `Run()` (40_cycle_and_operands.md R90): Steps until Halted, at most k of them, the limit being the
executor's own. From a Halted state it returns at once. -/
def runAtMost : Nat → State → Host.Outcome State Fault Refusal
  | 0, s => .next s
  | k + 1, s =>
    match s.run with
    | .halted => .next s
    | .running =>
      match step s with
      | .next t => runAtMost k t
      | .fault f => .fault f
      | .refused r => .refused r

/-- What the host reads as status (60_exceptions.md R167, 10_state.md R35), as the bits of R25 to R27. -/
structure Status where
  state : BitVec 1
  err : BitVec 1
  cause : BitVec 3
  finfo : Info
  pc : Word
  rbo : Word
deriving DecidableEq, Repr

/-- Read status: it changes nothing (60_exceptions.md R167). -/
def State.readStatus (s : State) : Status :=
  { state := s.run.code, err := errCode s.err, cause := s.cause.code, finfo := s.finfo, pc := s.pc,
    rbo := s.rbo }

/-- Read memory at index a: refused by the host interface outside 0 to N − 1, which is not an exception of
the machine (60_exceptions.md R167). -/
def State.readMemory (s : State) (a : Int) : Option Word :=
  if s.mem.inRange a then some (s.mem.word a.toNat) else none

/-- Supply input: a Word, a not-yet or a failure report joins the answers to come, after those already
there (60_exceptions.md R167; first in, first out, 42_input_output.md R112). -/
def State.supplyInput (s : State) (x : InputAnswer) : State :=
  s.setSource { s.source with answers := s.source.answers ++ [x] }

/-- Say how the sink will answer an offer to come (60_exceptions.md R167, take output). -/
def State.supplyAnswer (s : State) (x : OutputAnswer) : State :=
  s.setSink { s.sink with answers := s.sink.answers ++ [x] }

/-- Take output: the Words accepted so far, in program order (42_input_output.md R113). -/
def State.takeOutput (s : State) : List Word := s.sink.accepted

end Sys2Proof.Machine
end

