-- ==== Sys2Proof/Safety.lean ====
section
/-! DEFINITION. What the claims say of a state and of a run: the invariant of the machine, clean and
error ends of a run, and reading a word through an exact address. -/

namespace Sys2Proof.Machine

/-- The word at the exact address a is v, and a is in range (20_memory.md R44). -/
abbrev State.Holds (s : State) (a : Int) (v : Word) : Prop :=
  0 ≤ a ∧ a < s.mem.capacity ∧ s.mem.word a.toNat = v

/-- The address a is outside 0 to N − 1 (20_memory.md R44). -/
abbrev State.Outside (s : State) (a : Int) : Prop := a < 0 ∨ (s.mem.capacity : Int) ≤ a

/-- Source operand i in mode m is readable and has the value v (40_cycle_and_operands.md R85). -/
def State.SourceIs (s : State) (i : Nat) (m : Mode) (v : Word) : Prop :=
  ∃ r, s.Holds (s.pc.toInt + i) r ∧
    match m with
    | .position => s.Holds r.toInt v
    | .immediate => v = r
    | .relative => s.Holds (r.toInt + s.rbo.toInt) v

/-- Reading source operand i in mode m meets the exact address a outside memory: first its operand word,
then its data word (40_cycle_and_operands.md R84, R85, R87). -/
def State.SourceFaults (s : State) (i : Nat) (m : Mode) (a : Int) : Prop :=
  (s.Outside (s.pc.toInt + i) ∧ a = s.pc.toInt + i) ∨
    ∃ r, s.Holds (s.pc.toInt + i) r ∧
      match m with
      | .position => s.Outside r.toInt ∧ a = r.toInt
      | .immediate => False
      | .relative => s.Outside (r.toInt + s.rbo.toInt) ∧ a = r.toInt + s.rbo.toInt

/-- Destination operand i in mode m names the location t, inside memory; immediate mode is position mode
(40_cycle_and_operands.md R86). -/
def State.TargetIs (s : State) (i : Nat) (m : Mode) (t : Int) : Prop :=
  0 ≤ t ∧ t < s.mem.capacity ∧ ∃ r, s.Holds (s.pc.toInt + i) r ∧
    match m with
    | .position => t = r.toInt
    | .immediate => t = r.toInt
    | .relative => t = r.toInt + s.rbo.toInt

/-- Resolving destination operand i in mode m meets the exact address a outside memory: its operand word,
then the location (40_cycle_and_operands.md R86, R87). -/
def State.TargetFaults (s : State) (i : Nat) (m : Mode) (a : Int) : Prop :=
  (s.Outside (s.pc.toInt + i) ∧ a = s.pc.toInt + i) ∨
    ∃ r, s.Holds (s.pc.toInt + i) r ∧ s.Outside a ∧
      match m with
      | .position => a = r.toInt
      | .immediate => a = r.toInt
      | .relative => a = r.toInt + s.rbo.toInt

/-- The state an exception leaves: Halted, the error flag set, cause and information recorded, all else as
before the Step (00_scope.md R12, 60_exceptions.md R158). -/
def State.errorHalt (s : State) (c : Cause) (info : Int) : State :=
  { s with run := .halted, err := true, cause := c, finfo := BitVec.ofInt 65 info }

/-- m' is m with v at index t and every other word and the capacity as before (20_memory.md R43). -/
def Memory.StoredAt (m m' : Memory) (t : Int) (v : Word) : Prop :=
  m'.capacity = m.capacity ∧ m'.word t.toNat = v ∧ ∀ a, a ≠ t.toNat → m'.word a = m.word a

/-- The rule ADD, MUL, LT and EQ share (40_cycle_and_operands.md R92): with both sources readable as a and
b and the location t inside memory, the instruction completes, storing `result a b` at t and advancing by
4; otherwise the first address out of range, in the order operand 1, 2, 3, is the exception taken (R87). -/
def ComputesAndStores (i : Instr) (m1 m2 m3 : Mode) (result : Word → Word → Word) (s : State) : Prop :=
  (∀ a b t, s.SourceIs 1 m1 a → s.SourceIs 2 m2 b → s.TargetIs 3 m3 t →
    ∃ mem', exec i s = .next { s with pc := wrap (s.pc.toInt + 4), mem := mem' } ∧
      s.mem.StoredAt mem' t (result a b)) ∧
  (∀ x, s.SourceFaults 1 m1 x → exec i s = .next (s.errorHalt .addressOutOfRange x)) ∧
  (∀ a x, s.SourceIs 1 m1 a → s.SourceFaults 2 m2 x →
    exec i s = .next (s.errorHalt .addressOutOfRange x)) ∧
  (∀ a b x, s.SourceIs 1 m1 a → s.SourceIs 2 m2 b → s.TargetFaults 3 m3 x →
    exec i s = .next (s.errorHalt .addressOutOfRange x))

/-- The rule JT and JF share (43_jumps.md R120, R121): both operands are resolved, operand 1 first, whether
or not the jump is taken; taken, `pc` is exactly b, otherwise it advances by 3. -/
def JumpsWhen (i : Instr) (m1 m2 : Mode) (taken : Word → Prop) (s : State) : Prop :=
  (∀ a b, s.SourceIs 1 m1 a → s.SourceIs 2 m2 b →
    (taken a → exec i s = .next { s with pc := b }) ∧
    (¬ taken a → exec i s = .next { s with pc := wrap (s.pc.toInt + 3) })) ∧
  (∀ x, s.SourceFaults 1 m1 x → exec i s = .next (s.errorHalt .addressOutOfRange x)) ∧
  (∀ a x, s.SourceIs 1 m1 a → s.SourceFaults 2 m2 x →
    exec i s = .next (s.errorHalt .addressOutOfRange x))

/-- What the fault record must say for the cause it holds (10_state.md R27, 60_exceptions.md R150). -/
def State.RecordFits (s : State) : Prop :=
  match s.cause with
  | .none => s.err = false ∧ s.finfo = 0
  | .illegalOpcode => s.err = true ∧ ∃ w : Word, decode w = .ok (.illegal w) ∧ s.finfo.toInt = w.toInt
  | .addressOutOfRange => s.err = true ∧ s.Outside s.finfo.toInt
  | .illegalMode => s.err = true ∧ ∃ w : Word, decode w = .error (.illegalMode w) ∧ s.finfo.toInt = w.toInt
  | .inputFailure => s.err = true ∧ s.finfo = 0
  | .outputFailure => s.err = true ∧ s.finfo = 0

/-- The invariant of the machine: the memory is in canonical form and its capacity within the bound
(00_scope.md R6); the error flag is never set while Running (10_state.md R26); `cause` is 0 exactly when
`err` is 0, and `finfo` says what the cause requires (R27). -/
structure State.Inv (s : State) : Prop where
  memWf : s.mem.wf = true
  capacityBound : s.mem.capacity ≤ Config.maxCapacity
  errHalted : s.err = true → s.run = .halted
  record : s.RecordFits

/-- A clean end of a run (70_reset_and_hazards.md R187). -/
def State.EndedClean (s : State) : Prop := s.run = .halted ∧ s.err = false

/-- An error end of a run (70_reset_and_hazards.md R187). -/
def State.EndedInError (s : State) : Prop := s.run = .halted ∧ s.err = true

/-- k Steps of the machine, one after another (40_cycle_and_operands.md R90). -/
def afterSteps (k : Nat) (s : State) : Host.Outcome State Fault Refusal := Host.Core.run Sys2Proof.core k s

/-- A safe run of k Steps from s: it reaches t and no exception is recorded there
(60_exceptions.md R159). -/
def SafeRun (k : Nat) (s t : State) : Prop := afterSteps k s = .next t ∧ t.err = false

end Sys2Proof.Machine
end

