-- ==== Sys2Proof/Certificates/Slice0/Obligations.lean ====
section
/-! DEFINITION. The statements for the provers. Each docstring names the rule of the spec it formalises, or
the log entry where it rests on a choice of the model. The vocabulary (Holds, Outside, SourceIs, TargetIs,
errorHalt, StoredAt, Inv) is Sys2Proof/Safety.lean's, written from the spec beside the meanings. -/

open Sys2Proof Sys2Proof.Machine

/-! ### Reset -/

/-- 10_state.md R33: every piece of state after reset, for every N, PROGRAM and port binding. -/
def Obligations.ResetLeavesTheSpecifiedState : Prop :=
  ∀ (n : Nat) (program : List Word) (source : Source) (sink : Sink),
    program.length ≤ n → n ≤ 2 ^ 63 - 4 →
    ∃ s, construct n program source sink = some s ∧
      s.pc = 0 ∧ s.rbo = 0 ∧ s.run = .running ∧ s.err = false ∧ s.cause = .none ∧ s.finfo = 0 ∧
      s.mem.capacity = n ∧
      (∀ i (h : i < program.length), s.mem.word i = program[i]) ∧
      (∀ i, program.length ≤ i → s.mem.word i = 0) ∧
      s.source = source ∧ s.sink = sink

/-- 70_reset_and_hazards.md R181: reset is refused exactly when its precondition fails, and the machine of
no words is legal: its first Step raises AddressOutOfRange(0). -/
def Obligations.ResetIsRefusedOutsideItsPrecondition : Prop :=
  ∀ (n : Nat) (program : List Word) (source : Source) (sink : Sink),
    (construct n program source sink = none ↔ n < program.length ∨ 2 ^ 63 - 4 < n) ∧
    ∃ s, construct 0 [] source sink = some s ∧ step s = .next (s.errorHalt .addressOutOfRange 0)

/-- The invariant holds after every reset, and of the model's own `State.reset` (whose capacity and ports
are the model's choice: log entries 1 and 2). -/
def Obligations.ResetEstablishesTheInvariant : Prop :=
  State.reset.Inv ∧
  ∀ n program source sink s, construct n program source sink = some s → s.Inv

/-! ### The machine as a whole -/

/-- Every Step keeps the invariant: canonical memory within the capacity bound (00_scope.md R6), the error
flag never set while Running (10_state.md R26), and a fault record that says what its cause requires
(R27). -/
def Obligations.EveryStepKeepsTheInvariant : Prop :=
  ∀ s t : State, s.Inv → step s = .next t → t.Inv

/-- 40_cycle_and_operands.md R80: every Step answers a next state; it was a no-op of a Halted machine, or it
raised one exception, or it stalled on a port, or it completed. How a stall looks as a next state is the
model's choice (log entry 4). -/
def Obligations.EveryStepEndsInOneOfFourWays : Prop :=
  ∀ s : State, ∃ t, step s = .next t ∧
    ((s.run = .halted ∧ t = s) ∨
      (s.run = .running ∧ ∃ c x, c ≠ Cause.none ∧ t = s.errorHalt c x) ∨
      (s.run = .running ∧ s.source.answer = .notYet ∧
        t = { s with source := { s.source with answers := s.source.answers.tail } }) ∨
      (s.run = .running ∧ s.sink.answer = .notYet ∧
        t = { s with sink := { s.sink with answers := s.sink.answers.tail } }) ∨
      (s.run = .running ∧ t.err = s.err ∧ t.cause = s.cause ∧ t.finfo = s.finfo ∧
        (t.pc = wrap (s.pc.toInt + 1) ∨ t.pc = wrap (s.pc.toInt + 2) ∨ t.pc = wrap (s.pc.toInt + 4) ∨
          ∃ m1 m2 a b w, s.SourceIs 1 m1 a ∧ s.SourceIs 2 m2 b ∧ s.Holds s.pc.toInt w ∧
            (decode w = .ok (.jt m1 m2) ∨ decode w = .ok (.jf m1 m2)) ∧
            (t.pc = b ∨ t.pc = wrap (s.pc.toInt + 3)))))

/-- 40_cycle_and_operands.md R81: no Step, and no number of Steps, changes anything of a Halted machine or
of its ports; Run returns at once. -/
def Obligations.HaltedMachineNeverMoves : Prop :=
  ∀ s : State, s.run = .halted →
    ∀ k, afterSteps k s = .next s ∧ runAtMost k s = .next s

/-- 60_exceptions.md R159: once the error flag is set no Step changes the record (nor anything else), reset
clears it, and a run that ends with no fault recorded raised no exception on the way. -/
def Obligations.FaultRecordIsSticky : Prop :=
  ∀ (k : Nat) (s t : State), s.Inv → afterSteps k s = .next t →
    (s.err = true → t = s) ∧
    (∀ n program u, t.resetAgain n program = some u → u.err = false ∧ u.cause = .none ∧ u.finfo = 0) ∧
    (t.err = false → ∀ j, j ≤ k → ∃ u, SafeRun j s u ∧ u.cause = .none)

/-- 10_state.md R25 and R26: only a HLT, cleanly, or an exception, with the error flag, takes the machine
from Running to Halted. -/
def Obligations.OnlyHaltOrExceptionLeavesRunning : Prop :=
  ∀ s t : State, s.Inv → s.run = .running → step s = .next t → t.run = .halted →
    (t.EndedClean ∧ t = { s with run := .halted, pc := wrap (s.pc.toInt + 1) } ∧
      ∃ w, s.Holds s.pc.toInt w ∧ decode w = .ok .hlt) ∨
    (t.EndedInError ∧ ∃ c x, c ≠ Cause.none ∧ t = s.errorHalt c x)

/-- 10_state.md R24: only ARB writes `rbo`. -/
def Obligations.OnlyAdjustBaseWritesRbo : Prop :=
  ∀ s t : State, step s = .next t → t.rbo ≠ s.rbo →
    ∃ w m a, s.Holds s.pc.toInt w ∧ decode w = .ok (.arb m) ∧ s.SourceIs 1 m a ∧
      t.rbo = wrap (s.rbo.toInt + a.toInt)

/-- 10_state.md R34 and R28: a Step writes at most one memory word, one inside memory, and only ADD, MUL,
LT, EQ and IN write any; the capacity never changes. -/
def Obligations.StepWritesAtMostOneWord : Prop :=
  ∀ s t : State, step s = .next t →
    t.mem.capacity = s.mem.capacity ∧
    (∀ a b, t.mem.word a ≠ s.mem.word a → t.mem.word b ≠ s.mem.word b → a = b) ∧
    ∀ a, t.mem.word a ≠ s.mem.word a → a < s.mem.capacity ∧
      ∃ w i, s.Holds s.pc.toInt w ∧ decode w = .ok i ∧ Role.destination ∈ i.roles

/-- 10_state.md R30 and R34: one Step consumes at most one input value, and only by IN; it produces at most
one output value, and only by OUT. -/
def Obligations.PortsMoveOnlyByInAndOut : Prop :=
  ∀ s t : State, step s = .next t →
    (t.source = s.source ∨ ∃ w m, s.Holds s.pc.toInt w ∧ decode w = .ok (.inp m)) ∧
    (t.sink = s.sink ∨ ∃ w m, s.Holds s.pc.toInt w ∧ decode w = .ok (.out m)) ∧
    (t.source.consumed = s.source.consumed ∨
      t.source.consumed = s.source.consumed + 1 ∧ ∃ v, s.source.answer = .value v) ∧
    (t.sink.accepted = s.sink.accepted ∨
      s.sink.answer = .accepted ∧ ∃ w m v, s.Holds s.pc.toInt w ∧ decode w = .ok (.out m) ∧
        s.SourceIs 1 m v ∧ t.sink.accepted = s.sink.accepted ++ [v])

/-- 42_input_output.md R113: over any number of Steps no accepted value is dropped or reordered, and each
Step adds at most one. -/
def Obligations.AcceptedOutputIsNeverLost : Prop :=
  ∀ (k : Nat) (s t : State), afterSteps k s = .next t →
    s.sink.accepted <+: t.sink.accepted ∧
    t.sink.accepted.length ≤ s.sink.accepted.length + k ∧
    s.source.consumed ≤ t.source.consumed ∧ t.source.consumed ≤ s.source.consumed + k

/-- 40_cycle_and_operands.md R89 and 10_state.md R23: from a state of the invariant, a Step that raises
nothing advances `pc` by exactly the width of its instruction, with no wrap, unless it is a taken jump or a
stall, which is a next state by the model's choice (log entry 4). -/
def Obligations.CompletingStepAdvancesByItsWidth : Prop :=
  ∀ s t w i, s.Inv → s.run = .running → s.Holds s.pc.toInt w → decode w = .ok i →
    step s = .next t → t.err = false →
    t.pc.toInt = s.pc.toInt + 1 + i.modes.length ∨
    (∃ m1 m2 a b, s.SourceIs 1 m1 a ∧ s.SourceIs 2 m2 b ∧
      (i = .jt m1 m2 ∧ a ≠ 0 ∨ i = .jf m1 m2 ∧ a = 0) ∧ t.pc = b) ∨
    (t.pc = s.pc ∧ ((∃ m, i = .inp m) ∧ s.source.answer = .notYet ∨
      (∃ m, i = .out m) ∧ s.sink.answer = .notYet))

/-- 40_cycle_and_operands.md R90: Run is Step repeated until Halted; with the executor's limit of k Steps it
leaves what k Steps leave. -/
def Obligations.RunIsRepeatedStep : Prop :=
  ∀ (k : Nat) (s : State), runAtMost k s = afterSteps k s

/-- 10_state.md R30 and R34: an instruction other than IN and OUT neither reads nor changes the ports: with
any other source and sink it does the same. -/
def Obligations.OtherInstructionsIgnoreThePorts : Prop :=
  ∀ (i : Instr) (s t : State) (q : Source) (k : Sink), (∀ m, i ≠ .inp m) → (∀ m, i ≠ .out m) →
    exec i s = .next t →
    t.source = s.source ∧ t.sink = s.sink ∧
      exec i { s with source := q, sink := k } = .next { t with source := q, sink := k }

/-- The canonical form says it all: memories of one capacity that read the same everywhere are equal data
(log entry 7). -/
def Obligations.CanonicalMemoryIsItsWords : Prop :=
  ∀ m m' : Memory, m.wf = true → m'.wf = true → m.capacity = m'.capacity →
    (∀ a, m.word a = m'.word a) → m = m'

/-! ### Fetch and decode -/

/-- 40_cycle_and_operands.md R80, R82 and R83: a Step of a running machine is the meaning of the instruction
the word at `pc` decodes to. The meanings write `pc` themselves, so nothing is added around them. -/
def Obligations.StepRunsTheDecodedInstruction : Prop :=
  ∀ (s : State) (w : Word) (i : Instr), s.run = .running → s.Holds s.pc.toInt w → decode w = .ok i →
    i.wellFormed = true ∧ step s = exec i s

/-- 40_cycle_and_operands.md R82: a fetch outside memory raises AddressOutOfRange(pc), `pc` unchanged. -/
def Obligations.FetchOutsideMemoryFaults : Prop :=
  ∀ s : State, s.run = .running → s.Outside s.pc.toInt →
    step s = .next (s.errorHalt .addressOutOfRange s.pc.toInt)

/-- 30_encoding.md R69 and 60_exceptions.md R152: a mode digit 3 to 9 on an operand the instruction has is
rejected, and the Step raises IllegalMode with the word, before any operand word is read. -/
def Obligations.UsedModeDigitAboveTwoIsIllegalMode : Prop :=
  ∀ (w : Word) (k : Nat), 0 ≤ w.toInt → w.toNat % 100 ∈ listedOpcodes →
    k < operandCountOf (w.toNat % 100) → 3 ≤ digit w.toNat (k + 2) →
    decode w = .error (.illegalMode w) ∧
    ∀ s : State, s.run = .running → s.Holds s.pc.toInt w →
      step s = .next (s.errorHalt .illegalMode w.toInt)

/-- 45_base_halt_illegal.md R142, 60_exceptions.md R151, 30_encoding.md R67 and R68: a negative word, and a
word whose low two digits are no opcode, is ILLEGAL, and its Step raises IllegalOpcode with the word. -/
def Obligations.UnrecognizedWordIsIllegalOpcode : Prop :=
  ∀ w : Word, (w.toInt < 0 ∨ w.toNat % 100 = 0 ∨ 10 ≤ w.toNat % 100 ∧ w.toNat % 100 ≤ 98) →
    decode w = .ok (.illegal w) ∧
    ∀ s : State, exec (.illegal w) s = .next (s.errorHalt .illegalOpcode w.toInt) ∧
      (s.run = .running → s.Holds s.pc.toInt w → step s = .next (s.errorHalt .illegalOpcode w.toInt))

/-- 20_memory.md R55 and 10_state.md R27: the W + 1 bits of `finfo` hold every address a Step can compute,
and every instruction word, exactly. -/
def Obligations.FaultInformationIsExact : Prop :=
  ∀ (s : State) (c : Cause) (r : Word) (i : Nat), i ≤ 3 →
    (s.errorHalt c (s.pc.toInt + i)).finfo.toInt = s.pc.toInt + i ∧
    (s.errorHalt c r.toInt).finfo.toInt = r.toInt ∧
    (s.errorHalt c (r.toInt + s.rbo.toInt)).finfo.toInt = r.toInt + s.rbo.toInt

/-- 30_encoding.md R61, R62: decoding the word of a well-formed instruction gives the instruction back, with
every mode on every operand. -/
def Obligations.DecodeOfEncodeIsTheInstruction : Prop :=
  ∀ i : Instr, i.wellFormed = true → decode (encode i) = .ok i

/-- 30_encoding.md R70: the words of an instruction with c operands are exactly the non-negative ones whose
digits below position c + 2 are those of its encoding; the digits above take no part. -/
def Obligations.HigherDigitsAreIgnored : Prop :=
  ∀ (w : Word) (i : Instr), i.opcode ≠ none →
    (decode w = .ok i ↔
      0 ≤ w.toInt ∧ w.toNat % 10 ^ (i.modes.length + 2) = (encode i).toNat)

/-- 30_encoding.md R77: the partition of the words: negative, ILLEGAL; unlisted opcode, ILLEGAL; listed with
a used mode digit above 2, illegal mode; otherwise a legal instruction of that opcode with those modes. -/
def Obligations.EveryWordFallsInOneClass : Prop :=
  ∀ w : Word,
    (w.toInt < 0 → decode w = .ok (.illegal w)) ∧
    (0 ≤ w.toInt → w.toNat % 100 ∉ listedOpcodes → decode w = .ok (.illegal w)) ∧
    (0 ≤ w.toInt → w.toNat % 100 ∈ listedOpcodes →
      ((∃ k, k < operandCountOf (w.toNat % 100) ∧ 3 ≤ digit w.toNat (k + 2)) →
        decode w = .error (.illegalMode w)) ∧
      ((∀ k, k < operandCountOf (w.toNat % 100) → digit w.toNat (k + 2) ≤ 2) →
        ∃ i, decode w = .ok i ∧ i.opcode = some (w.toNat % 100) ∧
          i.modes.map Mode.digit =
            (List.range (operandCountOf (w.toNat % 100))).map fun k => digit w.toNat (k + 2)))

/-- Words written out from 30_encoding.md R61 and R63, one of each family, decode to what they stand for. A
sanity statement. -/
def Obligations.WrittenOutWordsDecode : Prop :=
  decode 21101 = .ok (.add .immediate .immediate .relative) ∧
  decode 1002 = .ok (.mul .position .immediate .position) ∧
  decode 203 = .ok (.inp .relative) ∧
  decode 104 = .ok (.out .immediate) ∧
  decode 1105 = .ok (.jt .immediate .immediate) ∧
  decode 2006 = .ok (.jf .position .relative) ∧
  decode 1107 = .ok (.lt .immediate .immediate .position) ∧
  decode 20208 = .ok (.eq .relative .position .relative) ∧
  decode 109 = .ok (.arb .immediate) ∧
  decode 99 = .ok .hlt ∧
  decode 42 = .ok (.illegal 42) ∧
  decode 301 = .error (.illegalMode 301)

/-- How `withFetchWord` places an instruction (log entry 8): the very next Step runs what the decoder reads
from the bits; and where the machine is running with room at `pc`, only the four words there change. -/
def Obligations.PlacedInstructionRunsNext : Prop :=
  ∀ (s : State) (nbits w : Nat) (i : Instr), decodeTableWord nbits w = some i →
    step (s.withFetchWord nbits w) = exec i (s.withFetchWord nbits w) ∧
    (s.run = .running → 0 ≤ s.pc.toInt → s.pc.toInt + 4 ≤ s.mem.capacity →
      ∃ mem', s.withFetchWord nbits w = { s with mem := mem' } ∧ mem'.capacity = s.mem.capacity ∧
        ∀ a : Nat, ((a : Int) < s.pc.toInt ∨ s.pc.toInt + 4 ≤ (a : Int)) →
          mem'.word a = s.mem.word a)

/-! ### The instructions -/

/-- 00_scope.md R8, 41_arithmetic.md R102: `wrap(v)` is the one Word congruent to v modulo 2^64. -/
def Obligations.WrapIsTheCongruentWord : Prop :=
  ∀ (v : Int) (w : Word), ((2 : Int) ^ 64 ∣ w.toInt - v) ↔ w = wrap v

/-- 41_arithmetic.md R100 and R101: encoding, result, and exceptions in operand order, of ADD and MUL, in
every mode. All operands are read in the state before the Step (20_memory.md R49). -/
def Obligations.AddAndMulStoreTheWrappedResult : Prop :=
  ∀ (s : State) (m1 m2 m3 : Mode),
    (encode (.add m1 m2 m3)).toNat = 1 + 100 * m1.digit + 1000 * m2.digit + 10000 * m3.digit ∧
    ComputesAndStores (.add m1 m2 m3) m1 m2 m3 (fun a b => wrap (a.toInt + b.toInt)) s ∧
    (encode (.mul m1 m2 m3)).toNat = 2 + 100 * m1.digit + 1000 * m2.digit + 10000 * m3.digit ∧
    ComputesAndStores (.mul m1 m2 m3) m1 m2 m3 (fun a b => wrap (a.toInt * b.toInt)) s

/-- 44_compare.md R130, R131 and R132: encoding, result, and exceptions in operand order, of LT (signed
order) and EQ (identity), in every mode; the word written is 1 or 0. -/
def Obligations.LtAndEqStoreOneOrZero : Prop :=
  ∀ (s : State) (m1 m2 m3 : Mode),
    (encode (.lt m1 m2 m3)).toNat = 7 + 100 * m1.digit + 1000 * m2.digit + 10000 * m3.digit ∧
    ComputesAndStores (.lt m1 m2 m3) m1 m2 m3 (fun a b => if a.toInt < b.toInt then 1 else 0) s ∧
    (encode (.eq m1 m2 m3)).toNat = 8 + 100 * m1.digit + 1000 * m2.digit + 10000 * m3.digit ∧
    ComputesAndStores (.eq m1 m2 m3) m1 m2 m3 (fun a b => if a.toInt = b.toInt then 1 else 0) s

/-- 40_cycle_and_operands.md R86: a destination in immediate mode behaves exactly as in position mode, in
each of the five instructions that have one. -/
def Obligations.ImmediateDestinationActsAsPosition : Prop :=
  ∀ (s : State) (m1 m2 : Mode),
    exec (.add m1 m2 .immediate) s = exec (.add m1 m2 .position) s ∧
    exec (.mul m1 m2 .immediate) s = exec (.mul m1 m2 .position) s ∧
    exec (.lt m1 m2 .immediate) s = exec (.lt m1 m2 .position) s ∧
    exec (.eq m1 m2 .immediate) s = exec (.eq m1 m2 .position) s ∧
    exec (.inp .immediate) s = exec (.inp .position) s

/-- 42_input_output.md R110: with a location inside memory and a value at the port, IN completes, writing
that value and consuming exactly one; a failed port raises InputFailure; a bad address is raised before the
port is asked, consuming nothing. The source as a list of answers, and the next state of a stall, are the
model's form of INPUT (log entries 3 and 4). -/
def Obligations.InStoresOneConsumedValue : Prop :=
  ∀ (s : State) (m1 : Mode),
    (encode (.inp m1)).toNat = 3 + 100 * m1.digit ∧
    (∀ t v, s.TargetIs 1 m1 t → s.source.answer = .value v →
      ∃ mem', exec (.inp m1) s = .next { s with
          pc := wrap (s.pc.toInt + 2), mem := mem',
          source := { s.source with answers := s.source.answers.tail, consumed := s.source.consumed + 1 } } ∧
        s.mem.StoredAt mem' t v) ∧
    (∀ t, s.TargetIs 1 m1 t → s.source.answer = .notYet →
      exec (.inp m1) s = .next { s with source := { s.source with answers := s.source.answers.tail } }) ∧
    (∀ t, s.TargetIs 1 m1 t → s.source.answer = .failure →
      exec (.inp m1) s = .next (s.errorHalt .inputFailure 0)) ∧
    (∀ x, s.TargetFaults 1 m1 x → exec (.inp m1) s = .next (s.errorHalt .addressOutOfRange x))

/-- 42_input_output.md R111: with a readable operand and an accepting port, OUT completes, producing exactly
that value; a failed port raises OutputFailure; a bad address is raised before the port is used. The sink as
a list of answers, and the next state of a stall, are the model's form of OUTPUT (log entries 3 and 4). -/
def Obligations.OutProducesItsValue : Prop :=
  ∀ (s : State) (m1 : Mode),
    (encode (.out m1)).toNat = 4 + 100 * m1.digit ∧
    (∀ a, s.SourceIs 1 m1 a → s.sink.answer = .accepted →
      exec (.out m1) s = .next { s with
        pc := wrap (s.pc.toInt + 2),
        sink := { s.sink with answers := s.sink.answers.tail, accepted := s.sink.accepted ++ [a] } }) ∧
    (∀ a, s.SourceIs 1 m1 a → s.sink.answer = .notYet →
      exec (.out m1) s = .next { s with sink := { s.sink with answers := s.sink.answers.tail } }) ∧
    (∀ a, s.SourceIs 1 m1 a → s.sink.answer = .failure →
      exec (.out m1) s = .next (s.errorHalt .outputFailure 0)) ∧
    (∀ x, s.SourceFaults 1 m1 x → exec (.out m1) s = .next (s.errorHalt .addressOutOfRange x))

/-- 43_jumps.md R120 and R121: encoding, target, and exceptions in operand order, of JT and JF, in every
mode. The target is taken exactly, whatever Word it is; both operands are resolved even when the jump is not
taken. -/
def Obligations.JumpsTakeExactlyTheirTarget : Prop :=
  ∀ (s : State) (m1 m2 : Mode),
    (encode (.jt m1 m2)).toNat = 5 + 100 * m1.digit + 1000 * m2.digit ∧
    JumpsWhen (.jt m1 m2) m1 m2 (fun a => a.toInt ≠ 0) s ∧
    (encode (.jf m1 m2)).toNat = 6 + 100 * m1.digit + 1000 * m2.digit ∧
    JumpsWhen (.jf m1 m2) m1 m2 (fun a => a.toInt = 0) s

/-- 45_base_halt_illegal.md R140: ARB adds its operand, read through the old `rbo`, to `rbo`, wrapping; a
bad address is raised; no other instruction writes `rbo`. -/
def Obligations.ArbAddsToTheBase : Prop :=
  (∀ (i : Instr) (s t : State), exec i s = .next t → t.rbo ≠ s.rbo → ∃ m, i = .arb m) ∧
  ∀ (s : State) (m1 : Mode),
    (encode (.arb m1)).toNat = 9 + 100 * m1.digit ∧
    (∀ a, s.SourceIs 1 m1 a → exec (.arb m1) s = .next { s with
      rbo := wrap (s.rbo.toInt + a.toInt), pc := wrap (s.pc.toInt + 2) }) ∧
    (∀ x, s.SourceFaults 1 m1 x → exec (.arb m1) s = .next (s.errorHalt .addressOutOfRange x))

/-- 45_base_halt_illegal.md R141: HLT halts cleanly and advances `pc` by 1, in every state, so also in the
last word of memory; every word with low digits 99 is a HLT; afterwards every Step is a no-op. -/
def Obligations.HltHaltsCleanly : Prop :=
  (encode .hlt).toNat = 99 ∧
  (∀ w : Word, 0 ≤ w.toInt → w.toNat % 100 = 99 → decode w = .ok .hlt) ∧
  ∀ s : State, exec .hlt s = .next { s with run := .halted, pc := wrap (s.pc.toInt + 1) } ∧
    ∀ t k, exec .hlt s = .next t → afterSteps k t = .next t

/-- Frame of ADD, MUL, LT, EQ and IN: `rbo`, the capacity and the sink stay, the source too but for IN;
every word but the one at the location computed for the destination reads as before, and all of memory is
unchanged when there is no such location; the status registers stay unless an exception is taken, and then
nothing else changes. -/
def Obligations.FrameOfStoringInstructions : Prop :=
  ∀ (s t : State) (m1 m2 m3 : Mode),
    (∀ i ∈ [Instr.add m1 m2 m3, .mul m1 m2 m3, .lt m1 m2 m3, .eq m1 m2 m3], exec i s = .next t →
      t.rbo = s.rbo ∧ t.mem.capacity = s.mem.capacity ∧ t.source = s.source ∧ t.sink = s.sink ∧
      (∀ loc a, s.targetLocation 3 m3 = .ok loc → a ≠ loc.toNat → t.mem.word a = s.mem.word a) ∧
      ((∀ loc, s.targetLocation 3 m3 ≠ .ok loc) → t.mem = s.mem) ∧
      (t.run = s.run ∧ t.err = s.err ∧ t.cause = s.cause ∧ t.finfo = s.finfo ∨
        t = s.errorHalt .addressOutOfRange t.finfo.toInt)) ∧
    (exec (.inp m1) s = .next t →
      t.rbo = s.rbo ∧ t.mem.capacity = s.mem.capacity ∧ t.sink = s.sink ∧
      (∀ loc a, s.targetLocation 1 m1 = .ok loc → a ≠ loc.toNat → t.mem.word a = s.mem.word a) ∧
      ((∀ loc, s.targetLocation 1 m1 ≠ .ok loc) → t.mem = s.mem ∧ t.source = s.source) ∧
      (t.run = s.run ∧ t.err = s.err ∧ t.cause = s.cause ∧ t.finfo = s.finfo ∨
        ∃ c, t = s.errorHalt c t.finfo.toInt))

/-- Frame of the instructions that store nothing, OUT, JT, JF, ARB, HLT and ILLEGAL: all of memory and the
source stay; `rbo` stays but for ARB, the sink but for OUT; the status registers stay unless an exception is
taken, and then nothing else changes; HLT writes only `state` and `pc`. -/
def Obligations.FrameOfOtherInstructions : Prop :=
  ∀ (s t : State) (m1 m2 : Mode) (w : Word),
    (∀ i ∈ [Instr.out m1, .jt m1 m2, .jf m1 m2, .arb m1, .hlt, .illegal w], exec i s = .next t →
      t.mem = s.mem ∧ t.source = s.source ∧
      (t.rbo = s.rbo ∨ i = .arb m1) ∧ (t.sink = s.sink ∨ i = .out m1) ∧
      (t.run = s.run ∨ i = .hlt ∨ ∃ c, t = s.errorHalt c t.finfo.toInt) ∧
      (t.err = s.err ∧ t.cause = s.cause ∧ t.finfo = s.finfo ∨ ∃ c, t = s.errorHalt c t.finfo.toInt))

/-! ### Consequences over several Steps -/

/-- 20_memory.md R52: a store is seen by the very next fetch. An ADD that stores over the word at the next
`pc` makes the next Step run what it stored. -/
def Obligations.StoreIsSeenByTheNextFetch : Prop :=
  ∀ (s : State) (w a b : Word) (m1 m2 m3 : Mode) (j : Instr), s.run = .running →
    s.mem.capacity ≤ 2 ^ 63 - 4 → s.Holds s.pc.toInt w → decode w = .ok (.add m1 m2 m3) →
    s.SourceIs 1 m1 a → s.SourceIs 2 m2 b → s.TargetIs 3 m3 (s.pc.toInt + 4) →
    decode (wrap (a.toInt + b.toInt)) = .ok j →
    ∃ t, step s = .next t ∧ t.pc.toInt = s.pc.toInt + 4 ∧ step t = exec j t

/-- 43_jumps.md R122, 10_state.md R23: a taken jump to an index outside memory completes, and the next
Step's fetch raises AddressOutOfRange of the target, with `pc` the target. -/
def Obligations.BadJumpTargetFaultsAtTheNextFetch : Prop :=
  ∀ (s : State) (w a b : Word) (m1 m2 : Mode), s.run = .running → s.Holds s.pc.toInt w →
    (decode w = .ok (.jt m1 m2) ∧ a ≠ 0 ∨ decode w = .ok (.jf m1 m2) ∧ a = 0) →
    s.SourceIs 1 m1 a → s.SourceIs 2 m2 b → s.Outside b.toInt →
    ∃ t, step s = .next t ∧ t = { s with pc := b } ∧
      step t = .next (t.errorHalt .addressOutOfRange b.toInt)

/-- 40_cycle_and_operands.md R91, 70_reset_and_hazards.md R188: an IN whose source never answers, or an OUT
whose sink never accepts, waits for ever with nothing changed. The ports as lists of answers with a last
constant one, and the wait as a next state equal to the one before, are the model's form of it (log entries 3
and 4). -/
def Obligations.EndlessStallChangesNothing : Prop :=
  ∀ (s : State) (w : Word) (m : Mode) (k : Nat), s.run = .running → s.Holds s.pc.toInt w →
    (decode w = .ok (.inp m) → (∃ t, s.TargetIs 1 m t) → s.source.answers = [] → s.source.rest = .notYet →
      afterSteps k s = .next s) ∧
    (decode w = .ok (.out m) → (∃ a, s.SourceIs 1 m a) → s.sink.answers = [] → s.sink.rest = .notYet →
      afterSteps k s = .next s)

/-- Derived from 40_cycle_and_operands.md R91 (a stalled Step completes later, when the port answers, as if it
had started then) and 60_exceptions.md R167 (the host supplies a Word): an IN that waits on a source with
nothing to give completes with the Word the host supplies next, consuming one. Three clauses are the model's
choice and no rule of the spec: the source as a list of answers (log entry 3), the stall as a next state equal
to the one before, `step s = .next s`, where R91 only forbids a completed Step (log entry 4), and
`supplyInput`, by which a supplied answer joins the end of that list (log entry 17). -/
def Obligations.StalledInCompletesWhenSupplied : Prop :=
  ∀ (s : State) (w v : Word) (m : Mode) (t : Int), s.run = .running → s.Holds s.pc.toInt w →
    decode w = .ok (.inp m) → s.TargetIs 1 m t → s.source.answers = [] → s.source.rest = .notYet →
    step s = .next s ∧
    ∃ u, step (s.supplyInput (.value v)) = .next u ∧ s.mem.StoredAt u.mem t v ∧
      u.pc = wrap (s.pc.toInt + 2) ∧ u.source = { s.source with consumed := s.source.consumed + 1 } ∧
      u.run = .running ∧ u.err = s.err ∧ u.rbo = s.rbo ∧ u.sink = s.sink

/-! ### The host -/

/-- 70_reset_and_hazards.md R182: reset of an existing block, whatever its state, gives a running machine
with no fault recorded that depends on the block only through what its ports hold, which reset does not
touch. That the records of consumed and accepted Words stay with the ports is the model's choice (log entry
11). -/
def Obligations.ResetOfABlockForgetsItsState : Prop :=
  ∀ (s t : State) (n : Nat) (program : List Word), s.resetAgain n program = some t →
    t.pc = 0 ∧ t.rbo = 0 ∧ t.run = .running ∧ t.err = false ∧ t.cause = .none ∧ t.finfo = 0 ∧
    t.source = s.source ∧ t.sink = s.sink ∧ (∀ a, t.mem.word a = program.getD a 0) ∧
    ∀ s' : State, s'.source = s.source → s'.sink = s.sink → s'.resetAgain n program = some t

/-- 10_state.md R25 to R27, R35: the status bits the host reads, in a state of the invariant: `cause` is 0
exactly when `err` is 0, codes 6 and 7 never occur, and `err` is 1 only with `state` = Halted = 1. -/
def Obligations.StatusBitsAreConsistent : Prop :=
  ∀ s : State, s.Inv →
    (s.readStatus.cause = 0 ↔ s.readStatus.err = 0) ∧ s.readStatus.cause.toNat ≤ 5 ∧
    (s.readStatus.err = 1 → s.readStatus.state = 1) ∧
    (s.readStatus.cause = 0 → s.readStatus.finfo = 0) ∧
    (s.readStatus.cause = 4 ∨ s.readStatus.cause = 5 → s.readStatus.finfo = 0)

/-- 60_exceptions.md R167: the host reads `M[a]` for every index 0 to N − 1, and an index outside is refused
by the interface. -/
def Obligations.HostReadsMemoryInRange : Prop :=
  ∀ (s : State) (a : Int) (v : Word),
    (s.readMemory a = some v ↔ s.Holds a v) ∧ (s.readMemory a = none ↔ s.Outside a)
end

