-- ==== Sys2Proof/Laws/Decode.lean ====
section
/-! SUPPORT. Small laws of the decoder and the encoder. -/

namespace Sys2Proof

theorem Mode.digit_le (m : Mode) : m.digit ≤ 2 := by cases m <;> decide

/-- A digit stands for a mode exactly when it is the mode's digit. -/
theorem Mode.ofDigit_eq_some {d : Nat} {m : Mode} : Mode.ofDigit d = some m ↔ d = m.digit := by
  unfold Mode.ofDigit
  split_ifs <;> cases m <;> simp_all [Mode.digit]

theorem Mode.ofDigit_eq_none {d : Nat} : Mode.ofDigit d = none ↔ 3 ≤ d := by
  unfold Mode.ofDigit
  split_ifs <;> simp <;> omega

/-- The value of a word that passed the sign check is its `toNat`. -/
theorem toInt_eq_toNat {w : Word} (h : ¬ w.toInt < 0) : w.toInt = w.toNat := by
  rw [BitVec.toInt_eq_toNat_cond] at h ⊢
  have := w.isLt
  split_ifs at h ⊢ <;> omega

theorem toNat_lt_of_nonneg {w : Word} (h : ¬ w.toInt < 0) : w.toNat < 2 ^ 63 := by
  have h1 := toInt_eq_toNat h
  have h2 := w.two_mul_toInt_lt
  omega

/-- The composite of an opcode and three mode digits is the decimal number it is written as. -/
theorem composite_toNat {op : Nat} (hop : op < 100) (m1 m2 m3 : Nat) (h1 : m1 ≤ 2) (h2 : m2 ≤ 2) (h3 : m3 ≤ 2) :
    (composite op m1 m2 m3).toNat = op + 100 * m1 + 1000 * m2 + 10000 * m3 := by
  simp only [composite, BitVec.toNat_ofNat]
  omega

theorem composite_nonneg {op : Nat} (hop : op < 100) (m1 m2 m3 : Nat) (h1 : m1 ≤ 2) (h2 : m2 ≤ 2) (h3 : m3 ≤ 2) :
    ¬ (composite op m1 m2 m3).toInt < 0 := by
  have h := composite_toNat hop m1 m2 m3 h1 h2 h3
  rw [BitVec.toInt_eq_toNat_cond]
  split_ifs <;> omega

/-- The digits of `v div 100` are those of v, two places up (30_encoding.md R62). -/
theorem operandMode_eq (v i : Nat) (hi : 1 ≤ i) : operandMode v i = Mode.ofDigit (digit v (i + 1)) := by
  unfold operandMode digit
  rw [Nat.div_div_eq_div_mul]
  congr 3
  obtain ⟨k, rfl⟩ : ∃ k, i = k + 1 := ⟨i - 1, by omega⟩
  rw [Nat.add_sub_cancel, show k + 1 + 1 = 2 + k by omega, Nat.pow_add]

end Sys2Proof
end

