-- ==== Sys2Proof/Laws/Memory.lean ====
section
/-! SUPPORT. The laws of memory: what a write leaves at every index, that every operation keeps the
canonical form, and when an access is in range. -/

namespace Sys2Proof.Machine

/-! ### Reading after a write -/

theorem lookup_dropCell_same (a : Nat) (cells : List WordCell) : lookup a (dropCell a cells) = 0 := by
  induction cells with
  | nil => rfl
  | cons c rest ih =>
    by_cases h : c.1 = a
    · simpa [dropCell, h] using ih
    · have h' : a ≠ c.1 := fun e => h e.symm
      simpa [dropCell, h, lookup, h'] using ih

theorem lookup_dropCell_other {a b : Nat} (hne : b ≠ a) (cells : List WordCell) :
    lookup b (dropCell a cells) = lookup b cells := by
  induction cells with
  | nil => rfl
  | cons c rest ih =>
    by_cases h : c.1 = a
    · have hb : b ≠ c.1 := fun e => hne (e.trans h)
      simpa [dropCell, h, lookup, hne] using ih
    · by_cases hb : b = c.1
      · simp [dropCell, h, lookup, hb]
      · simpa [dropCell, h, lookup, hb] using ih

theorem lookup_placeCell_same (a : Nat) (v : Word) (cells : List WordCell)
    (h : ∀ c ∈ cells, c.1 ≠ a) : lookup a (placeCell a v cells) = v := by
  induction cells with
  | nil => simp [placeCell, lookup]
  | cons c rest ih =>
    have hc : a ≠ c.1 := fun e => h c (by simp) e.symm
    have hr := ih fun d hd => h d (by simp [hd])
    by_cases hlt : a < c.1
    · simp [placeCell, hlt, lookup]
    · simpa [placeCell, hlt, lookup, hc] using hr

theorem lookup_placeCell_other {a b : Nat} (hne : b ≠ a) (v : Word) (cells : List WordCell) :
    lookup b (placeCell a v cells) = lookup b cells := by
  induction cells with
  | nil => simp [placeCell, lookup, hne]
  | cons c rest ih =>
    by_cases hlt : a < c.1
    · simp [placeCell, hlt, lookup, hne]
    · by_cases hb : b = c.1
      · simp [placeCell, hlt, lookup, hb]
      · simpa [placeCell, hlt, lookup, hb] using ih

theorem putCell_zero (a : Nat) (cells : List WordCell) : putCell a 0 cells = dropCell a cells := by
  simp [putCell]

theorem putCell_nonzero (a : Nat) {v : Word} (hv : v ≠ 0) (cells : List WordCell) :
    putCell a v cells = placeCell a v (dropCell a cells) := if_neg hv

theorem imageCells_cons_nonzero (a : Nat) {w : Word} (hw : w ≠ 0) (rest : List Word) :
    imageCells a (w :: rest) = (a, w) :: imageCells (a + 1) rest := if_neg hw

theorem mem_dropCell_ne {a : Nat} {cells : List WordCell} : ∀ c ∈ dropCell a cells, c.1 ≠ a := by
  intro c hc
  simpa using (List.mem_filter.mp hc).2

/-- A write leaves v at its index and every other word as it was. -/
theorem lookup_putCell (a b : Nat) (v : Word) (cells : List WordCell) :
    lookup b (putCell a v cells) = if b = a then v else lookup b cells := by
  by_cases hb : b = a
  · subst hb
    by_cases hv : v = 0
    · rw [hv, putCell_zero, lookup_dropCell_same, if_pos rfl]
    · rw [putCell_nonzero _ hv, lookup_placeCell_same _ _ _ mem_dropCell_ne, if_pos rfl]
  · by_cases hv : v = 0
    · rw [hv, putCell_zero, lookup_dropCell_other hb, if_neg hb]
    · rw [putCell_nonzero _ hv, lookup_placeCell_other hb, lookup_dropCell_other hb, if_neg hb]

theorem Memory.word_setWord (m : Memory) (a b : Nat) (v : Word) :
    (m.setWord a v).word b = if b = a then v else m.word b := lookup_putCell a b v m.cells

@[simp] theorem Memory.setWord_capacity (m : Memory) (a : Nat) (v : Word) :
    (m.setWord a v).capacity = m.capacity := rfl

@[simp] theorem Memory.setWords_capacity (m : Memory) (a : Nat) (ws : List Word) :
    (m.setWords a ws).capacity = m.capacity := by
  induction ws generalizing m a with
  | nil => rfl
  | cons w rest ih => simp [Memory.setWords, ih]

/-! ### The canonical form is kept -/

theorem cellsWf_cons {n lo : Nat} {a : Nat} {v : Word} {rest : List WordCell} :
    cellsWf n lo ((a, v) :: rest) = true ↔
      lo ≤ a ∧ a < n ∧ v ≠ 0 ∧ cellsWf n (a + 1) rest = true := by
  simp [cellsWf, and_assoc]

theorem cellsWf_mono {n lo lo' : Nat} {cells : List WordCell} (hle : lo' ≤ lo)
    (h : cellsWf n lo cells = true) : cellsWf n lo' cells = true := by
  cases cells with
  | nil => rfl
  | cons c rest =>
    obtain ⟨h1, h2⟩ := cellsWf_cons.mp h
    exact cellsWf_cons.mpr ⟨hle.trans h1, h2⟩

theorem cellsWf_dropCell {n lo : Nat} (a : Nat) {cells : List WordCell}
    (h : cellsWf n lo cells = true) : cellsWf n lo (dropCell a cells) = true := by
  induction cells generalizing lo with
  | nil => rfl
  | cons c rest ih =>
    obtain ⟨hlo, hn, hv, hrest⟩ := cellsWf_cons.mp h
    by_cases hc : c.1 = a
    · simpa [dropCell, hc] using cellsWf_mono (by omega) (ih hrest)
    · have := cellsWf_cons.mpr ⟨hlo, hn, hv, ih hrest⟩
      simpa [dropCell, hc] using this

theorem cellsWf_placeCell {n lo a : Nat} {v : Word} {cells : List WordCell} (ha : lo ≤ a) (han : a < n)
    (hv : v ≠ 0) (hne : ∀ c ∈ cells, c.1 ≠ a) (h : cellsWf n lo cells = true) :
    cellsWf n lo (placeCell a v cells) = true := by
  induction cells generalizing lo with
  | nil => exact cellsWf_cons.mpr ⟨ha, han, hv, rfl⟩
  | cons c rest ih =>
    obtain ⟨hlo, hn, hcv, hrest⟩ := cellsWf_cons.mp h
    by_cases hlt : a < c.1
    · have := cellsWf_cons.mpr ⟨ha, han, hv, cellsWf_cons.mpr ⟨hlt, hn, hcv, hrest⟩⟩
      simpa [placeCell, hlt] using this
    · have hca : c.1 ≠ a := hne c (by simp)
      have hr := ih (lo := c.1 + 1) (by omega) (fun d hd => hne d (by simp [hd])) hrest
      have := cellsWf_cons.mpr ⟨hlo, hn, hcv, hr⟩
      simpa [placeCell, hlt] using this

theorem cellsWf_putCell {n lo a : Nat} (v : Word) {cells : List WordCell} (ha : lo ≤ a) (han : a < n)
    (h : cellsWf n lo cells = true) : cellsWf n lo (putCell a v cells) = true := by
  by_cases hv : v = 0
  · exact hv ▸ (putCell_zero a cells).symm ▸ cellsWf_dropCell a h
  · rw [putCell_nonzero _ hv]
    exact cellsWf_placeCell ha han hv mem_dropCell_ne (cellsWf_dropCell a h)

/-- Writing one word keeps the canonical form. -/
theorem Memory.wf_setWord {m : Memory} {a : Nat} (v : Word) (ha : a < m.capacity) (h : m.wf = true) :
    (m.setWord a v).wf = true := cellsWf_putCell v (Nat.zero_le a) ha h

/-- Writing several words keeps the canonical form. -/
theorem Memory.wf_setWords {m : Memory} {a : Nat} {ws : List Word} (ha : a + ws.length ≤ m.capacity)
    (h : m.wf = true) : (m.setWords a ws).wf = true := by
  induction ws generalizing m a with
  | nil => exact h
  | cons w rest ih =>
    simp only [List.length_cons] at ha
    exact ih (by simp only [Memory.setWord_capacity]; omega) (Memory.wf_setWord w (by omega) h)

/-- A larger capacity keeps the canonical form. -/
theorem cellsWf_grow {n n' lo : Nat} {cells : List WordCell} (hn : n ≤ n')
    (h : cellsWf n lo cells = true) : cellsWf n' lo cells = true := by
  induction cells generalizing lo with
  | nil => rfl
  | cons c rest ih =>
    obtain ⟨h1, h2, h3, h4⟩ := cellsWf_cons.mp h
    exact cellsWf_cons.mpr ⟨h1, h2.trans_le hn, h3, ih h4⟩

/-- Laying out an image gives the canonical form. -/
theorem cellsWf_imageCells {n a : Nat} {ws : List Word} (h : a + ws.length ≤ n) :
    cellsWf n a (imageCells a ws) = true := by
  induction ws generalizing a with
  | nil => rfl
  | cons w rest ih =>
    simp only [List.length_cons] at h
    have hr := ih (a := a + 1) (by omega)
    by_cases hw : w = 0
    · simpa [imageCells, hw] using cellsWf_mono (Nat.le_succ a) hr
    · rw [imageCells_cons_nonzero _ hw]
      exact cellsWf_cons.mpr ⟨le_refl a, by omega, hw, hr⟩

/-- An index below the first one of a canonical list reads 0. -/
theorem lookup_below {n lo a : Nat} {cells : List WordCell} (h : cellsWf n lo cells = true)
    (ha : a < lo) : lookup a cells = 0 := by
  induction cells generalizing lo with
  | nil => rfl
  | cons c rest ih =>
    obtain ⟨h1, _, _, h4⟩ := cellsWf_cons.mp h
    have hne : a ≠ c.1 := by omega
    simpa [lookup, hne] using ih h4 (by omega)

/-! ### Accesses -/

theorem Memory.inRange_iff {m : Memory} {a : Int} :
    m.inRange a = true ↔ 0 ≤ a ∧ a < m.capacity := by
  simp [Memory.inRange]

/-- Everything a read can do: the word in range, the exception with its address outside. -/
theorem Memory.memRead_cases (m : Memory) (a : Int) :
    (0 ≤ a ∧ a < m.capacity ∧ m.memRead a = .ok (m.word a.toNat)) ∨
      ((a < 0 ∨ (m.capacity : Int) ≤ a) ∧ m.memRead a = .error (.addressOutOfRange a)) := by
  by_cases h : m.inRange a = true
  · exact .inl ⟨(inRange_iff.mp h).1, (inRange_iff.mp h).2, by simp [memRead, h]⟩
  · have h' : ¬ (0 ≤ a ∧ a < m.capacity) := fun e => h (inRange_iff.mpr e)
    exact .inr ⟨by omega, by simp [memRead, h]⟩

theorem Memory.memRead_ok_iff {m : Memory} {a : Int} {v : Word} :
    m.memRead a = .ok v ↔ 0 ≤ a ∧ a < m.capacity ∧ m.word a.toNat = v := by
  obtain ⟨h0, h1, h⟩ | ⟨hr, h⟩ := m.memRead_cases a
  · simp [h, h0, h1]
  · rw [h]
    refine ⟨fun e => by simp at e, fun e => by omega⟩

theorem Memory.memRead_error_iff {m : Memory} {a : Int} {e : Trap} :
    m.memRead a = .error e ↔ (a < 0 ∨ (m.capacity : Int) ≤ a) ∧ e = .addressOutOfRange a := by
  obtain ⟨h0, h1, h⟩ | ⟨hr, h⟩ := m.memRead_cases a
  · rw [h]
    refine ⟨fun e => by simp at e, fun e => by omega⟩
  · simp [h, hr, eq_comm]

/-- A write in range writes its word. -/
theorem Memory.memWrite_of_inRange {m : Memory} {a : Int} (v : Word) (h0 : 0 ≤ a) (h1 : a < m.capacity) :
    m.memWrite a v = .ok (m.setWord a.toNat v) := by
  simp [memWrite, inRange_iff.mpr ⟨h0, h1⟩]

end Sys2Proof.Machine
end

