-- ==== Sys2Proof/Laws/Operands.lean ====
section
/-! SUPPORT. What resolving an operand can do, said once: it answers the value or the location the spec's
words describe, or raises AddressOutOfRange with the first address outside memory. -/

namespace Sys2Proof.Machine

theorem State.holds_iff {s : State} {a : Int} {v : Word} : s.mem.memRead a = .ok v ↔ s.Holds a v :=
  Memory.memRead_ok_iff

theorem State.outside_iff {s : State} {a : Int} {e : Trap} :
    s.mem.memRead a = .error e ↔ s.Outside a ∧ e = .addressOutOfRange a := Memory.memRead_error_iff

/-- An address in memory is not outside it. -/
theorem State.Holds.not_outside {s : State} {a : Int} {v : Word} (h : s.Holds a v) : ¬ s.Outside a := by
  obtain ⟨h0, h1, _⟩ := h
  unfold State.Outside
  omega

theorem State.Holds.unique {s : State} {a : Int} {v w : Word} (h : s.Holds a v) (h' : s.Holds a w) :
    v = w := h.2.2.symm.trans h'.2.2

/-- Every address is in memory or outside it. -/
theorem State.holds_or_outside (s : State) (a : Int) : (∃ v, s.Holds a v) ∨ s.Outside a := by
  obtain ⟨h0, h1, _⟩ | ⟨h, _⟩ := s.mem.memRead_cases a
  · exact .inl ⟨_, h0, h1, rfl⟩
  · exact .inr h

theorem State.sourceValue_ok_iff {s : State} {i : Nat} {m : Mode} {v : Word} :
    s.sourceValue i m = .ok v ↔ s.SourceIs i m v := by
  simp only [State.sourceValue, State.rawWord, State.SourceIs, ← State.holds_iff, bind, Except.bind]
  cases h : s.mem.memRead (s.pc.toInt + i) with
  | error e => simp
  | ok r => cases m <;> simp [eq_comm]

theorem State.sourceValue_error_iff {s : State} {i : Nat} {m : Mode} {e : Trap} :
    s.sourceValue i m = .error e ↔ ∃ a, e = .addressOutOfRange a ∧ s.SourceFaults i m a := by
  simp only [State.sourceValue, State.rawWord, State.SourceFaults, bind, Except.bind]
  obtain ⟨r, hr⟩ | ho := s.holds_or_outside (s.pc.toInt + i)
  · have hu : ∀ x, s.Holds (s.pc.toInt + i) x ↔ x = r := fun x => ⟨fun h => h.unique hr, fun h => h ▸ hr⟩
    rw [State.holds_iff.mpr hr]
    cases m <;> simp [hr.not_outside, hu, State.outside_iff, and_comm]
  · have hu : ∀ x, ¬ s.Holds (s.pc.toInt + i) x := fun x h => h.not_outside ho
    rw [State.outside_iff.mpr ⟨ho, rfl⟩]
    simp [ho, hu, eq_comm]

theorem State.checkedLocation_ok_iff {s : State} {t u : Int} :
    s.checkedLocation t = .ok u ↔ 0 ≤ u ∧ u < s.mem.capacity ∧ u = t := by
  by_cases h : s.mem.inRange t = true
  · have := Memory.inRange_iff.mp h
    simp only [State.checkedLocation, h, if_true, Except.ok.injEq]
    omega
  · have h' : ¬ (0 ≤ t ∧ t < s.mem.capacity) := fun e => h (Memory.inRange_iff.mpr e)
    simp only [State.checkedLocation, h, Bool.false_eq_true, if_false, reduceCtorEq, false_iff]
    omega

theorem State.checkedLocation_error_iff {s : State} {t : Int} {e : Trap} :
    s.checkedLocation t = .error e ↔ s.Outside t ∧ e = .addressOutOfRange t := by
  by_cases h : s.mem.inRange t = true
  · have := Memory.inRange_iff.mp h
    simp only [State.checkedLocation, h, if_true, reduceCtorEq, false_iff, State.Outside]
    omega
  · have h' : ¬ (0 ≤ t ∧ t < s.mem.capacity) := fun e => h (Memory.inRange_iff.mpr e)
    have ho : s.Outside t := by unfold State.Outside; omega
    simp [State.checkedLocation, h, ho, eq_comm]

theorem State.targetLocation_ok_iff {s : State} {i : Nat} {m : Mode} {t : Int} :
    s.targetLocation i m = .ok t ↔ s.TargetIs i m t := by
  simp only [State.targetLocation, State.rawWord, State.TargetIs, ← State.holds_iff, bind, Except.bind]
  cases h : s.mem.memRead (s.pc.toInt + i) with
  | error e => simp
  | ok r => cases m <;> simp [State.targetAddress, State.checkedLocation_ok_iff]

theorem State.targetLocation_error_iff {s : State} {i : Nat} {m : Mode} {e : Trap} :
    s.targetLocation i m = .error e ↔ ∃ a, e = .addressOutOfRange a ∧ s.TargetFaults i m a := by
  simp only [State.targetLocation, State.rawWord, State.TargetFaults, bind, Except.bind]
  obtain ⟨r, hr⟩ | ho := s.holds_or_outside (s.pc.toInt + i)
  · have hu : ∀ x, s.Holds (s.pc.toInt + i) x ↔ x = r := fun x => ⟨fun h => h.unique hr, fun h => h ▸ hr⟩
    rw [State.holds_iff.mpr hr]
    cases m <;> simp only [State.targetAddress, State.checkedLocation_error_iff, hr.not_outside, hu,
      exists_eq_left, false_and, false_or] <;>
      exact ⟨fun ⟨h, he⟩ => ⟨_, he, h, rfl⟩, fun ⟨a, he, h, ha⟩ => ⟨ha ▸ h, ha ▸ he⟩⟩
  · have hu : ∀ x, ¬ s.Holds (s.pc.toInt + i) x := fun x h => h.not_outside ho
    rw [State.outside_iff.mpr ⟨ho, rfl⟩]
    simp [ho, hu, eq_comm]

/-- Resolving a source either gives its value or meets one address outside memory. -/
theorem State.sourceValue_cases (s : State) (i : Nat) (m : Mode) :
    (∃ v, s.SourceIs i m v ∧ s.sourceValue i m = .ok v) ∨
      ∃ a, s.SourceFaults i m a ∧ s.sourceValue i m = .error (.addressOutOfRange a) := by
  cases h : s.sourceValue i m with
  | ok v => exact .inl ⟨v, sourceValue_ok_iff.mp h, rfl⟩
  | error e =>
    obtain ⟨a, rfl, ha⟩ := sourceValue_error_iff.mp h
    exact .inr ⟨a, ha, rfl⟩

/-- Resolving a destination either gives its location or meets one address outside memory. -/
theorem State.targetLocation_cases (s : State) (i : Nat) (m : Mode) :
    (∃ t, s.TargetIs i m t ∧ s.targetLocation i m = .ok t) ∨
      ∃ a, s.TargetFaults i m a ∧ s.targetLocation i m = .error (.addressOutOfRange a) := by
  cases h : s.targetLocation i m with
  | ok t => exact .inl ⟨t, targetLocation_ok_iff.mp h, rfl⟩
  | error e =>
    obtain ⟨a, rfl, ha⟩ := targetLocation_error_iff.mp h
    exact .inr ⟨a, ha, rfl⟩

/-- The address a source operand faults on is outside memory. -/
theorem State.SourceFaults.outside {s : State} {i : Nat} {m : Mode} {a : Int}
    (h : s.SourceFaults i m a) : s.Outside a := by
  obtain ⟨h, rfl⟩ | ⟨r, _, h⟩ := h
  · exact h
  · cases m with
    | position => exact h.2 ▸ h.1
    | immediate => exact h.elim
    | relative => exact h.2 ▸ h.1

/-- The address a destination operand faults on is outside memory. -/
theorem State.TargetFaults.outside {s : State} {i : Nat} {m : Mode} {a : Int}
    (h : s.TargetFaults i m a) : s.Outside a := by
  obtain ⟨h, rfl⟩ | ⟨_, _, h, _⟩ := h
  · exact h
  · exact h

/-- Every address an operand can fault on fits the W + 1 bits of `finfo` (20_memory.md R55). -/
theorem State.SourceFaults.fits {s : State} {i : Nat} {m : Mode} {a : Int} (hi : i ≤ 3)
    (h : s.SourceFaults i m a) : -(2 ^ 64) ≤ a ∧ a < 2 ^ 64 := by
  have hp := (s.pc).two_mul_toInt_lt; have hp' := (s.pc).le_two_mul_toInt
  have hb := (s.rbo).two_mul_toInt_lt; have hb' := (s.rbo).le_two_mul_toInt
  obtain ⟨_, rfl⟩ | ⟨r, _, h⟩ := h
  · omega
  · have hr := r.two_mul_toInt_lt; have hr' := r.le_two_mul_toInt
    cases m with
    | position => have := h.2; omega
    | immediate => exact h.elim
    | relative => have := h.2; omega

theorem State.TargetFaults.fits {s : State} {i : Nat} {m : Mode} {a : Int} (hi : i ≤ 3)
    (h : s.TargetFaults i m a) : -(2 ^ 64) ≤ a ∧ a < 2 ^ 64 := by
  have hp := (s.pc).two_mul_toInt_lt; have hp' := (s.pc).le_two_mul_toInt
  have hb := (s.rbo).two_mul_toInt_lt; have hb' := (s.rbo).le_two_mul_toInt
  obtain ⟨_, rfl⟩ | ⟨r, _, _, h⟩ := h
  · omega
  · have hr := r.two_mul_toInt_lt; have hr' := r.le_two_mul_toInt
    cases m <;> (dsimp only at h; omega)

end Sys2Proof.Machine
end

