-- ==== Sys2Proof/Laws/State.lean ====
section
/-! SUPPORT. What each named update of the state leaves in each field, so that no later proof unfolds a
record update. -/

namespace Sys2Proof.Machine

/-! ### setPc -/

@[simp] theorem State.setPc_pc (s : State) (v : Word) : (s.setPc v).pc = v := rfl
@[simp] theorem State.setPc_rbo (s : State) (v : Word) : (s.setPc v).rbo = s.rbo := rfl
@[simp] theorem State.setPc_mem (s : State) (v : Word) : (s.setPc v).mem = s.mem := rfl
@[simp] theorem State.setPc_run (s : State) (v : Word) : (s.setPc v).run = s.run := rfl
@[simp] theorem State.setPc_err (s : State) (v : Word) : (s.setPc v).err = s.err := rfl
@[simp] theorem State.setPc_cause (s : State) (v : Word) : (s.setPc v).cause = s.cause := rfl
@[simp] theorem State.setPc_finfo (s : State) (v : Word) : (s.setPc v).finfo = s.finfo := rfl
@[simp] theorem State.setPc_source (s : State) (v : Word) : (s.setPc v).source = s.source := rfl
@[simp] theorem State.setPc_sink (s : State) (v : Word) : (s.setPc v).sink = s.sink := rfl

/-! ### setRbo -/

@[simp] theorem State.setRbo_pc (s : State) (v : Word) : (s.setRbo v).pc = s.pc := rfl
@[simp] theorem State.setRbo_rbo (s : State) (v : Word) : (s.setRbo v).rbo = v := rfl
@[simp] theorem State.setRbo_mem (s : State) (v : Word) : (s.setRbo v).mem = s.mem := rfl
@[simp] theorem State.setRbo_run (s : State) (v : Word) : (s.setRbo v).run = s.run := rfl
@[simp] theorem State.setRbo_err (s : State) (v : Word) : (s.setRbo v).err = s.err := rfl
@[simp] theorem State.setRbo_cause (s : State) (v : Word) : (s.setRbo v).cause = s.cause := rfl
@[simp] theorem State.setRbo_finfo (s : State) (v : Word) : (s.setRbo v).finfo = s.finfo := rfl
@[simp] theorem State.setRbo_source (s : State) (v : Word) : (s.setRbo v).source = s.source := rfl
@[simp] theorem State.setRbo_sink (s : State) (v : Word) : (s.setRbo v).sink = s.sink := rfl

/-! ### setMem -/

@[simp] theorem State.setMem_pc (s : State) (m : Memory) : (s.setMem m).pc = s.pc := rfl
@[simp] theorem State.setMem_rbo (s : State) (m : Memory) : (s.setMem m).rbo = s.rbo := rfl
@[simp] theorem State.setMem_mem (s : State) (m : Memory) : (s.setMem m).mem = m := rfl
@[simp] theorem State.setMem_run (s : State) (m : Memory) : (s.setMem m).run = s.run := rfl
@[simp] theorem State.setMem_err (s : State) (m : Memory) : (s.setMem m).err = s.err := rfl
@[simp] theorem State.setMem_cause (s : State) (m : Memory) : (s.setMem m).cause = s.cause := rfl
@[simp] theorem State.setMem_finfo (s : State) (m : Memory) : (s.setMem m).finfo = s.finfo := rfl
@[simp] theorem State.setMem_source (s : State) (m : Memory) : (s.setMem m).source = s.source := rfl
@[simp] theorem State.setMem_sink (s : State) (m : Memory) : (s.setMem m).sink = s.sink := rfl

/-! ### setSource -/

@[simp] theorem State.setSource_pc (s : State) (q : Source) : (s.setSource q).pc = s.pc := rfl
@[simp] theorem State.setSource_rbo (s : State) (q : Source) : (s.setSource q).rbo = s.rbo := rfl
@[simp] theorem State.setSource_mem (s : State) (q : Source) : (s.setSource q).mem = s.mem := rfl
@[simp] theorem State.setSource_run (s : State) (q : Source) : (s.setSource q).run = s.run := rfl
@[simp] theorem State.setSource_err (s : State) (q : Source) : (s.setSource q).err = s.err := rfl
@[simp] theorem State.setSource_cause (s : State) (q : Source) : (s.setSource q).cause = s.cause := rfl
@[simp] theorem State.setSource_finfo (s : State) (q : Source) : (s.setSource q).finfo = s.finfo := rfl
@[simp] theorem State.setSource_source (s : State) (q : Source) : (s.setSource q).source = q := rfl
@[simp] theorem State.setSource_sink (s : State) (q : Source) : (s.setSource q).sink = s.sink := rfl

/-! ### setSink -/

@[simp] theorem State.setSink_pc (s : State) (q : Sink) : (s.setSink q).pc = s.pc := rfl
@[simp] theorem State.setSink_rbo (s : State) (q : Sink) : (s.setSink q).rbo = s.rbo := rfl
@[simp] theorem State.setSink_mem (s : State) (q : Sink) : (s.setSink q).mem = s.mem := rfl
@[simp] theorem State.setSink_run (s : State) (q : Sink) : (s.setSink q).run = s.run := rfl
@[simp] theorem State.setSink_err (s : State) (q : Sink) : (s.setSink q).err = s.err := rfl
@[simp] theorem State.setSink_cause (s : State) (q : Sink) : (s.setSink q).cause = s.cause := rfl
@[simp] theorem State.setSink_finfo (s : State) (q : Sink) : (s.setSink q).finfo = s.finfo := rfl
@[simp] theorem State.setSink_source (s : State) (q : Sink) : (s.setSink q).source = s.source := rfl
@[simp] theorem State.setSink_sink (s : State) (q : Sink) : (s.setSink q).sink = q := rfl

/-! ### halt -/

@[simp] theorem State.halt_pc (s : State) : (s.halt).pc = s.pc := rfl
@[simp] theorem State.halt_rbo (s : State) : (s.halt).rbo = s.rbo := rfl
@[simp] theorem State.halt_mem (s : State) : (s.halt).mem = s.mem := rfl
@[simp] theorem State.halt_run (s : State) : (s.halt).run = .halted := rfl
@[simp] theorem State.halt_err (s : State) : (s.halt).err = s.err := rfl
@[simp] theorem State.halt_cause (s : State) : (s.halt).cause = s.cause := rfl
@[simp] theorem State.halt_finfo (s : State) : (s.halt).finfo = s.finfo := rfl
@[simp] theorem State.halt_source (s : State) : (s.halt).source = s.source := rfl
@[simp] theorem State.halt_sink (s : State) : (s.halt).sink = s.sink := rfl

/-! ### advance -/

@[simp] theorem State.advance_pc (s : State) (c : Nat) : (s.advance c).pc = wrap (s.pc.toInt + 1 + c) := rfl
@[simp] theorem State.advance_rbo (s : State) (c : Nat) : (s.advance c).rbo = s.rbo := rfl
@[simp] theorem State.advance_mem (s : State) (c : Nat) : (s.advance c).mem = s.mem := rfl
@[simp] theorem State.advance_run (s : State) (c : Nat) : (s.advance c).run = s.run := rfl
@[simp] theorem State.advance_err (s : State) (c : Nat) : (s.advance c).err = s.err := rfl
@[simp] theorem State.advance_cause (s : State) (c : Nat) : (s.advance c).cause = s.cause := rfl
@[simp] theorem State.advance_finfo (s : State) (c : Nat) : (s.advance c).finfo = s.finfo := rfl
@[simp] theorem State.advance_source (s : State) (c : Nat) : (s.advance c).source = s.source := rfl
@[simp] theorem State.advance_sink (s : State) (c : Nat) : (s.advance c).sink = s.sink := rfl

/-! ### raise -/

@[simp] theorem State.raise_pc (s : State) (e : Trap) : (s.raise e).pc = s.pc := rfl
@[simp] theorem State.raise_rbo (s : State) (e : Trap) : (s.raise e).rbo = s.rbo := rfl
@[simp] theorem State.raise_mem (s : State) (e : Trap) : (s.raise e).mem = s.mem := rfl
@[simp] theorem State.raise_run (s : State) (e : Trap) : (s.raise e).run = .halted := rfl
@[simp] theorem State.raise_err (s : State) (e : Trap) : (s.raise e).err = true := rfl
@[simp] theorem State.raise_cause (s : State) (e : Trap) : (s.raise e).cause = e.cause := rfl
@[simp] theorem State.raise_finfo (s : State) (e : Trap) : (s.raise e).finfo = infoOf e.info := rfl
@[simp] theorem State.raise_source (s : State) (e : Trap) : (s.raise e).source = s.source := rfl
@[simp] theorem State.raise_sink (s : State) (e : Trap) : (s.raise e).sink = s.sink := rfl

/-! ### The ports -/

@[simp] theorem Source.waited_consumed (q : Source) : q.waited.consumed = q.consumed := rfl
@[simp] theorem Source.waited_rest (q : Source) : q.waited.rest = q.rest := rfl
@[simp] theorem Source.waited_answers (q : Source) : q.waited.answers = q.answers.tail := rfl
@[simp] theorem Source.delivered_consumed (q : Source) : q.delivered.consumed = q.consumed + 1 := rfl
@[simp] theorem Source.delivered_rest (q : Source) : q.delivered.rest = q.rest := rfl
@[simp] theorem Source.delivered_answers (q : Source) : q.delivered.answers = q.answers.tail := rfl
@[simp] theorem Sink.waited_accepted (q : Sink) : q.waited.accepted = q.accepted := rfl
@[simp] theorem Sink.waited_rest (q : Sink) : q.waited.rest = q.rest := rfl
@[simp] theorem Sink.waited_answers (q : Sink) : q.waited.answers = q.answers.tail := rfl
@[simp] theorem Sink.took_accepted (q : Sink) (v : Word) : (q.took v).accepted = q.accepted ++ [v] := rfl
@[simp] theorem Sink.took_rest (q : Sink) (v : Word) : (q.took v).rest = q.rest := rfl
@[simp] theorem Sink.took_answers (q : Sink) (v : Word) : (q.took v).answers = q.answers.tail := rfl

/-- A source whose answers are used up waits without changing. -/
theorem Source.waited_of_empty (q : Source) (h : q.answers = []) : q.waited = q := by
  cases q
  simp_all [Source.waited]

/-- A sink whose answers are used up waits without changing. -/
theorem Sink.waited_of_empty (q : Sink) (h : q.answers = []) : q.waited = q := by
  cases q
  simp_all [Sink.waited]

end Sys2Proof.Machine
end

