-- ==== Sys2Proof/Laws/Exec.lean ====
section
/-! SUPPORT. What each shared form and each meaning can do, said once: completion under readable
operands, the exception of the first operand out of range, and one inversion lemma over all
instructions. -/

namespace Sys2Proof.Machine

/-! ### Endings -/

@[simp] theorem conclude_completed (s t : State) : conclude s (.ok (.completed t)) = .next t := rfl
@[simp] theorem conclude_stalled (s t : State) : conclude s (.ok (.stalled t)) = .next t := rfl
@[simp] theorem conclude_raised (s : State) (e : Trap) : conclude s (.ok (.raised e)) = .next (s.raise e) := rfl
@[simp] theorem conclude_error (s : State) (e : Trap) : conclude s (.error e) = .next (s.raise e) := rfl

/-- The entry of AddressOutOfRange in the words of the claims. -/
theorem State.raise_addressOutOfRange (s : State) (x : Int) :
    s.raise (.addressOutOfRange x) = s.errorHalt .addressOutOfRange x := rfl

/-! ### Compute and store -/

theorem computeStore_completes {r : Word → Word → Word} {m1 m2 m3 : Mode} {s : State} {a b : Word} {t : Int}
    (h1 : s.SourceIs 1 m1 a) (h2 : s.SourceIs 2 m2 b) (h3 : s.TargetIs 3 m3 t) :
    computeStore r m1 m2 m3 s =
      .ok (.completed ((s.setMem (s.mem.setWord t.toNat (r a b))).advance 3)) := by
  simp only [computeStore, State.sourceValue_ok_iff.mpr h1, State.sourceValue_ok_iff.mpr h2,
    State.targetLocation_ok_iff.mpr h3, Memory.memWrite_of_inRange _ h3.1 h3.2.1, bind, Except.bind]

theorem computeStore_fault1 {r : Word → Word → Word} {m1 m2 m3 : Mode} {s : State} {x : Int}
    (h1 : s.SourceFaults 1 m1 x) : computeStore r m1 m2 m3 s = .error (.addressOutOfRange x) := by
  simp only [computeStore, State.sourceValue_error_iff.mpr ⟨x, rfl, h1⟩, bind, Except.bind]

theorem computeStore_fault2 {r : Word → Word → Word} {m1 m2 m3 : Mode} {s : State} {a : Word} {x : Int}
    (h1 : s.SourceIs 1 m1 a) (h2 : s.SourceFaults 2 m2 x) :
    computeStore r m1 m2 m3 s = .error (.addressOutOfRange x) := by
  simp only [computeStore, State.sourceValue_ok_iff.mpr h1, State.sourceValue_error_iff.mpr ⟨x, rfl, h2⟩,
    bind, Except.bind]

theorem computeStore_fault3 {r : Word → Word → Word} {m1 m2 m3 : Mode} {s : State} {a b : Word} {x : Int}
    (h1 : s.SourceIs 1 m1 a) (h2 : s.SourceIs 2 m2 b) (h3 : s.TargetFaults 3 m3 x) :
    computeStore r m1 m2 m3 s = .error (.addressOutOfRange x) := by
  simp only [computeStore, State.sourceValue_ok_iff.mpr h1, State.sourceValue_ok_iff.mpr h2,
    State.targetLocation_error_iff.mpr ⟨x, rfl, h3⟩, bind, Except.bind]

/-- Everything `computeStore` can do. -/
theorem computeStore_cases (r : Word → Word → Word) (m1 m2 m3 : Mode) (s : State) :
    (∃ a b t, s.SourceIs 1 m1 a ∧ s.SourceIs 2 m2 b ∧ s.TargetIs 3 m3 t ∧ computeStore r m1 m2 m3 s =
        .ok (.completed ((s.setMem (s.mem.setWord t.toNat (r a b))).advance 3))) ∨
      ∃ x, s.Outside x ∧ -(2 ^ 64) ≤ x ∧ x < 2 ^ 64 ∧
        computeStore r m1 m2 m3 s = .error (.addressOutOfRange x) := by
  obtain ⟨a, ha, _⟩ | ⟨x, hx, _⟩ := s.sourceValue_cases 1 m1
  · obtain ⟨b, hb, _⟩ | ⟨x, hx, _⟩ := s.sourceValue_cases 2 m2
    · obtain ⟨t, ht, _⟩ | ⟨x, hx, _⟩ := s.targetLocation_cases 3 m3
      · exact .inl ⟨a, b, t, ha, hb, ht, computeStore_completes ha hb ht⟩
      · exact .inr ⟨x, hx.outside, (hx.fits (by omega)).1, (hx.fits (by omega)).2, computeStore_fault3 ha hb hx⟩
    · exact .inr ⟨x, hx.outside, (hx.fits (by omega)).1, (hx.fits (by omega)).2, computeStore_fault2 ha hx⟩
  · exact .inr ⟨x, hx.outside, (hx.fits (by omega)).1, (hx.fits (by omega)).2, computeStore_fault1 hx⟩

/-! ### Conditional jump -/

theorem conditionalJump_completes {f : Word → Bool} {m1 m2 : Mode} {s : State} {a b : Word}
    (h1 : s.SourceIs 1 m1 a) (h2 : s.SourceIs 2 m2 b) :
    conditionalJump f m1 m2 s = .ok (.completed (if f a then s.setPc b else s.advance 2)) := by
  simp only [conditionalJump, State.sourceValue_ok_iff.mpr h1, State.sourceValue_ok_iff.mpr h2, bind,
    Except.bind]

theorem conditionalJump_fault1 {f : Word → Bool} {m1 m2 : Mode} {s : State} {x : Int}
    (h1 : s.SourceFaults 1 m1 x) : conditionalJump f m1 m2 s = .error (.addressOutOfRange x) := by
  simp only [conditionalJump, State.sourceValue_error_iff.mpr ⟨x, rfl, h1⟩, bind, Except.bind]

theorem conditionalJump_fault2 {f : Word → Bool} {m1 m2 : Mode} {s : State} {a : Word} {x : Int}
    (h1 : s.SourceIs 1 m1 a) (h2 : s.SourceFaults 2 m2 x) :
    conditionalJump f m1 m2 s = .error (.addressOutOfRange x) := by
  simp only [conditionalJump, State.sourceValue_ok_iff.mpr h1, State.sourceValue_error_iff.mpr ⟨x, rfl, h2⟩,
    bind, Except.bind]

/-- Everything `conditionalJump` can do. -/
theorem conditionalJump_cases (f : Word → Bool) (m1 m2 : Mode) (s : State) :
    (∃ a b, s.SourceIs 1 m1 a ∧ s.SourceIs 2 m2 b ∧ conditionalJump f m1 m2 s =
        .ok (.completed (if f a then s.setPc b else s.advance 2))) ∨
      ∃ x, s.Outside x ∧ -(2 ^ 64) ≤ x ∧ x < 2 ^ 64 ∧
        conditionalJump f m1 m2 s = .error (.addressOutOfRange x) := by
  obtain ⟨a, ha, _⟩ | ⟨x, hx, _⟩ := s.sourceValue_cases 1 m1
  · obtain ⟨b, hb, _⟩ | ⟨x, hx, _⟩ := s.sourceValue_cases 2 m2
    · exact .inl ⟨a, b, ha, hb, conditionalJump_completes ha hb⟩
    · exact .inr ⟨x, hx.outside, (hx.fits (by omega)).1, (hx.fits (by omega)).2, conditionalJump_fault2 ha hx⟩
  · exact .inr ⟨x, hx.outside, (hx.fits (by omega)).1, (hx.fits (by omega)).2, conditionalJump_fault1 hx⟩

/-! ### The ports -/

theorem inputTo_value {t : Int} {s : State} {v : Word} (h0 : 0 ≤ t) (h1 : t < s.mem.capacity)
    (ha : s.source.answer = .value v) :
    inputTo t s = .ok (.completed
      (((s.setMem (s.mem.setWord t.toNat v)).setSource s.source.delivered).advance 1)) := by
  simp only [inputTo, ha, Memory.memWrite_of_inRange v h0 h1, bind, Except.bind]

theorem inputTo_notYet {t : Int} {s : State} (ha : s.source.answer = .notYet) :
    inputTo t s = .ok (.stalled (s.setSource s.source.waited)) := by
  simp only [inputTo, ha]

theorem inputTo_failure {t : Int} {s : State} (ha : s.source.answer = .failure) :
    inputTo t s = .error .inputFailure := by
  simp only [inputTo, ha]

theorem outputOf_accepted {a : Word} {s : State} (ha : s.sink.answer = .accepted) :
    outputOf a s = .ok (.completed ((s.setSink (s.sink.took a)).advance 1)) := by
  simp only [outputOf, ha]

theorem outputOf_notYet {a : Word} {s : State} (ha : s.sink.answer = .notYet) :
    outputOf a s = .ok (.stalled (s.setSink s.sink.waited)) := by
  simp only [outputOf, ha]

theorem outputOf_failure {a : Word} {s : State} (ha : s.sink.answer = .failure) :
    outputOf a s = .error .outputFailure := by
  simp only [outputOf, ha]

theorem execIn_of_target {m1 : Mode} {s : State} {t : Int} (h : s.TargetIs 1 m1 t) :
    execIn m1 s = conclude s (inputTo t s) := by
  simp only [execIn, State.targetLocation_ok_iff.mpr h, bind, Except.bind]

theorem execIn_of_fault {m1 : Mode} {s : State} {x : Int} (h : s.TargetFaults 1 m1 x) :
    execIn m1 s = .next (s.raise (.addressOutOfRange x)) := by
  simp only [execIn, State.targetLocation_error_iff.mpr ⟨x, rfl, h⟩, bind, Except.bind, conclude_error]

theorem execOut_of_source {m1 : Mode} {s : State} {a : Word} (h : s.SourceIs 1 m1 a) :
    execOut m1 s = conclude s (outputOf a s) := by
  simp only [execOut, State.sourceValue_ok_iff.mpr h, bind, Except.bind]

theorem execOut_of_fault {m1 : Mode} {s : State} {x : Int} (h : s.SourceFaults 1 m1 x) :
    execOut m1 s = .next (s.raise (.addressOutOfRange x)) := by
  simp only [execOut, State.sourceValue_error_iff.mpr ⟨x, rfl, h⟩, bind, Except.bind, conclude_error]

theorem execArb_of_source {m1 : Mode} {s : State} {a : Word} (h : s.SourceIs 1 m1 a) :
    execArb m1 s = .next ((s.setRbo (addWords s.rbo a)).advance 1) := by
  simp only [execArb, State.sourceValue_ok_iff.mpr h, bind, Except.bind, conclude_completed]

theorem execArb_of_fault {m1 : Mode} {s : State} {x : Int} (h : s.SourceFaults 1 m1 x) :
    execArb m1 s = .next (s.raise (.addressOutOfRange x)) := by
  simp only [execArb, State.sourceValue_error_iff.mpr ⟨x, rfl, h⟩, bind, Except.bind, conclude_error]

/-! ### Every instruction -/

/-- What an instruction can do to the state: each case names the instructions it belongs to. -/
inductive Effect (i : Instr) (s : State) : State → Prop where
  /-- an operand address outside memory; HLT and ILLEGAL have no operand -/
  | outOfRange (x : Int) (hx : s.Outside x) (lo : -(2 ^ 64) ≤ x) (hi : x < 2 ^ 64) (hop : i.modes ≠ []) :
      Effect i s (s.raise (.addressOutOfRange x))
  /-- ADD, MUL, LT, EQ -/
  | stored (m1 m2 m3 : Mode) (t : Int) (v : Word) (ht : s.TargetIs 3 m3 t)
      (hi : i = .add m1 m2 m3 ∨ i = .mul m1 m2 m3 ∨ i = .lt m1 m2 m3 ∨ i = .eq m1 m2 m3) :
      Effect i s ((s.setMem (s.mem.setWord t.toNat v)).advance 3)
  /-- IN with a value -/
  | input (m1 : Mode) (t : Int) (v : Word) (hi : i = .inp m1) (ht : s.TargetIs 1 m1 t)
      (ha : s.source.answer = .value v) :
      Effect i s (((s.setMem (s.mem.setWord t.toNat v)).setSource s.source.delivered).advance 1)
  /-- IN that waits -/
  | inputWait (m1 : Mode) (t : Int) (hi : i = .inp m1) (ht : s.TargetIs 1 m1 t)
      (ha : s.source.answer = .notYet) : Effect i s (s.setSource s.source.waited)
  /-- IN on a failed source -/
  | inputFail (m1 : Mode) (t : Int) (hi : i = .inp m1) (ht : s.TargetIs 1 m1 t)
      (ha : s.source.answer = .failure) : Effect i s (s.raise .inputFailure)
  /-- OUT accepted -/
  | output (m1 : Mode) (a : Word) (hi : i = .out m1) (h : s.SourceIs 1 m1 a)
      (ha : s.sink.answer = .accepted) : Effect i s ((s.setSink (s.sink.took a)).advance 1)
  /-- OUT that waits -/
  | outputWait (m1 : Mode) (a : Word) (hi : i = .out m1) (h : s.SourceIs 1 m1 a)
      (ha : s.sink.answer = .notYet) : Effect i s (s.setSink s.sink.waited)
  /-- OUT on a failed sink -/
  | outputFail (m1 : Mode) (a : Word) (hi : i = .out m1) (h : s.SourceIs 1 m1 a)
      (ha : s.sink.answer = .failure) : Effect i s (s.raise .outputFailure)
  /-- JT or JF taken -/
  | jumped (m1 m2 : Mode) (a b : Word) (hi : i = .jt m1 m2 ∧ a ≠ 0 ∨ i = .jf m1 m2 ∧ a = 0)
      (h1 : s.SourceIs 1 m1 a) (h2 : s.SourceIs 2 m2 b) : Effect i s (s.setPc b)
  /-- JT or JF not taken -/
  | fellThrough (m1 m2 : Mode) (a b : Word) (hi : i = .jt m1 m2 ∧ a = 0 ∨ i = .jf m1 m2 ∧ a ≠ 0)
      (h1 : s.SourceIs 1 m1 a) (h2 : s.SourceIs 2 m2 b) : Effect i s (s.advance 2)
  /-- ARB -/
  | adjusted (m1 : Mode) (a : Word) (hi : i = .arb m1) (h : s.SourceIs 1 m1 a) :
      Effect i s ((s.setRbo (addWords s.rbo a)).advance 1)
  /-- HLT -/
  | halted (hi : i = .hlt) : Effect i s (s.halt.advance 0)
  /-- ILLEGAL -/
  | illegal (w : Word) (hi : i = .illegal w) : Effect i s (s.raise (.illegalOpcode w))

theorem effect_computeStore {i : Instr} {r : Word → Word → Word} {m1 m2 m3 : Mode} {s : State}
    (hi : i = .add m1 m2 m3 ∨ i = .mul m1 m2 m3 ∨ i = .lt m1 m2 m3 ∨ i = .eq m1 m2 m3) :
    ∃ t, conclude s (computeStore r m1 m2 m3 s) = .next t ∧ Effect i s t := by
  obtain ⟨a, b, t, _, _, ht, h⟩ | ⟨x, hx, lo, hi', h⟩ := computeStore_cases r m1 m2 m3 s
  · exact ⟨_, by rw [h, conclude_completed], .stored m1 m2 m3 t (r a b) ht hi⟩
  · refine ⟨_, by rw [h, conclude_error], .outOfRange x hx lo hi' ?_⟩
    obtain rfl | rfl | rfl | rfl := hi <;> simp [Instr.modes]

theorem isTrue_iff (a : Word) : isTrue a = true ↔ a ≠ 0 := by simp [isTrue]

theorem effect_jump {i : Instr} {f : Word → Bool} {m1 m2 : Mode} {s : State}
    (hi : (i = .jt m1 m2 ∧ ∀ a, f a = true ↔ a ≠ 0) ∨ (i = .jf m1 m2 ∧ ∀ a, f a = true ↔ a = 0)) :
    ∃ t, conclude s (conditionalJump f m1 m2 s) = .next t ∧ Effect i s t := by
  obtain ⟨a, b, ha, hb, h⟩ | ⟨x, hx, lo, hi', h⟩ := conditionalJump_cases f m1 m2 s
  · refine ⟨_, by rw [h, conclude_completed], ?_⟩
    by_cases hf : f a = true
    · rw [if_pos hf]
      refine .jumped m1 m2 a b ?_ ha hb
      obtain ⟨rfl, hfa⟩ | ⟨rfl, hfa⟩ := hi
      · exact .inl ⟨rfl, (hfa a).mp hf⟩
      · exact .inr ⟨rfl, (hfa a).mp hf⟩
    · rw [if_neg hf]
      refine .fellThrough m1 m2 a b ?_ ha hb
      obtain ⟨rfl, hfa⟩ | ⟨rfl, hfa⟩ := hi
      · exact .inl ⟨rfl, by simpa using fun e => hf ((hfa a).mpr e)⟩
      · exact .inr ⟨rfl, fun e => hf ((hfa a).mpr e)⟩
  · refine ⟨_, by rw [h, conclude_error], .outOfRange x hx lo hi' ?_⟩
    obtain ⟨rfl, _⟩ | ⟨rfl, _⟩ := hi <;> simp [Instr.modes]

/-- Every instruction answers a next state, and it is one of the listed effects. -/
theorem exec_effect (i : Instr) (s : State) : ∃ t, exec i s = .next t ∧ Effect i s t := by
  cases i with
  | add m1 m2 m3 => exact effect_computeStore (by simp)
  | mul m1 m2 m3 => exact effect_computeStore (by simp)
  | lt m1 m2 m3 => exact effect_computeStore (by simp)
  | eq m1 m2 m3 => exact effect_computeStore (by simp)
  | jt m1 m2 => exact effect_jump (.inl ⟨rfl, isTrue_iff⟩)
  | jf m1 m2 => exact effect_jump (.inr ⟨rfl, fun a => by simp [isTrue]⟩)
  | inp m1 =>
    obtain ⟨t, ht, _⟩ | ⟨x, hx, _⟩ := s.targetLocation_cases 1 m1
    · show ∃ u, execIn m1 s = .next u ∧ _
      rw [execIn_of_target ht]
      cases ha : s.source.answer with
      | value v => exact ⟨_, by rw [inputTo_value ht.1 ht.2.1 ha, conclude_completed], .input m1 t v rfl ht ha⟩
      | notYet => exact ⟨_, by rw [inputTo_notYet ha, conclude_stalled], .inputWait m1 t rfl ht ha⟩
      | failure => exact ⟨_, by rw [inputTo_failure ha, conclude_error], .inputFail m1 t rfl ht ha⟩
    · exact ⟨_, execIn_of_fault hx,
        .outOfRange x hx.outside (hx.fits (by omega)).1 (hx.fits (by omega)).2 (by simp [Instr.modes])⟩
  | out m1 =>
    obtain ⟨a, h, _⟩ | ⟨x, hx, _⟩ := s.sourceValue_cases 1 m1
    · show ∃ u, execOut m1 s = .next u ∧ _
      rw [execOut_of_source h]
      cases ha : s.sink.answer with
      | accepted => exact ⟨_, by rw [outputOf_accepted ha, conclude_completed], .output m1 a rfl h ha⟩
      | notYet => exact ⟨_, by rw [outputOf_notYet ha, conclude_stalled], .outputWait m1 a rfl h ha⟩
      | failure => exact ⟨_, by rw [outputOf_failure ha, conclude_error], .outputFail m1 a rfl h ha⟩
    · exact ⟨_, execOut_of_fault hx,
        .outOfRange x hx.outside (hx.fits (by omega)).1 (hx.fits (by omega)).2 (by simp [Instr.modes])⟩
  | arb m1 =>
    obtain ⟨a, h, _⟩ | ⟨x, hx, _⟩ := s.sourceValue_cases 1 m1
    · exact ⟨_, execArb_of_source h, .adjusted m1 a rfl h⟩
    · exact ⟨_, execArb_of_fault hx,
        .outOfRange x hx.outside (hx.fits (by omega)).1 (hx.fits (by omega)).2 (by simp [Instr.modes])⟩
  | hlt => exact ⟨_, rfl, .halted rfl⟩
  | illegal w => exact ⟨_, rfl, .illegal w rfl⟩

/-- The inversion lemma of `exec`: whatever it answers is one of the listed effects. -/
theorem exec_cases {i : Instr} {s t : State} (h : exec i s = .next t) : Effect i s t := by
  obtain ⟨u, hu, he⟩ := exec_effect i s
  have : u = t := by simpa [h] using hu.symm
  exact this ▸ he

end Sys2Proof.Machine
end

