-- ==== Sys2Proof/Laws/PerInstr.lean ====
section
/-! SUPPORT. Statements made for every instruction, one lemma per constructor. The family `EncodedWord`
says what the word of a well-formed instruction looks like: a non-negative word whose low two decimal
digits are the opcode, with as many modes and roles as the opcode has operands (30_encoding.md R61, R63,
R64); an ILLEGAL instruction has no operand and a word that selects no instruction (R67, R68). -/

namespace Sys2Proof.Laws.EncodedWord

def Statement (i : Instr) : Prop :=
  i.wellFormed = true →
    match i.opcode with
    | some op => ¬ (encode i).toInt < 0 ∧ (encode i).toNat % 100 = op ∧
        i.modes.length = operandCountOf op ∧ i.roles.length = i.modes.length
    | none => i.modes = [] ∧ i.roles = [] ∧ unrecognized (encode i) = true

/-- The word of an opcode below 100 with mode digits at most 2. -/
theorem word_shape {op : Nat} (hop : op < 100) {d1 d2 d3 : Nat} (h1 : d1 ≤ 2) (h2 : d2 ≤ 2) (h3 : d3 ≤ 2) :
    ¬ (composite op d1 d2 d3).toInt < 0 ∧ (composite op d1 d2 d3).toNat % 100 = op := by
  refine ⟨composite_nonneg hop d1 d2 d3 h1 h2 h3, ?_⟩
  rw [composite_toNat hop d1 d2 d3 h1 h2 h3]
  omega

theorem add (m1 m2 m3 : Mode) : Statement (.add m1 m2 m3) := fun _ =>
  have h := word_shape (op := 1) (by decide) m1.digit_le m2.digit_le m3.digit_le
  ⟨h.1, h.2, rfl, rfl⟩

theorem mul (m1 m2 m3 : Mode) : Statement (.mul m1 m2 m3) := fun _ =>
  have h := word_shape (op := 2) (by decide) m1.digit_le m2.digit_le m3.digit_le
  ⟨h.1, h.2, rfl, rfl⟩

theorem inp (m1 : Mode) : Statement (.inp m1) := fun _ =>
  have h := word_shape (op := 3) (by decide) m1.digit_le (Nat.zero_le 2) (Nat.zero_le 2)
  ⟨h.1, h.2, rfl, rfl⟩

theorem out (m1 : Mode) : Statement (.out m1) := fun _ =>
  have h := word_shape (op := 4) (by decide) m1.digit_le (Nat.zero_le 2) (Nat.zero_le 2)
  ⟨h.1, h.2, rfl, rfl⟩

theorem jt (m1 m2 : Mode) : Statement (.jt m1 m2) := fun _ =>
  have h := word_shape (op := 5) (by decide) m1.digit_le m2.digit_le (Nat.zero_le 2)
  ⟨h.1, h.2, rfl, rfl⟩

theorem jf (m1 m2 : Mode) : Statement (.jf m1 m2) := fun _ =>
  have h := word_shape (op := 6) (by decide) m1.digit_le m2.digit_le (Nat.zero_le 2)
  ⟨h.1, h.2, rfl, rfl⟩

theorem lt (m1 m2 m3 : Mode) : Statement (.lt m1 m2 m3) := fun _ =>
  have h := word_shape (op := 7) (by decide) m1.digit_le m2.digit_le m3.digit_le
  ⟨h.1, h.2, rfl, rfl⟩

theorem eq (m1 m2 m3 : Mode) : Statement (.eq m1 m2 m3) := fun _ =>
  have h := word_shape (op := 8) (by decide) m1.digit_le m2.digit_le m3.digit_le
  ⟨h.1, h.2, rfl, rfl⟩

theorem arb (m1 : Mode) : Statement (.arb m1) := fun _ =>
  have h := word_shape (op := 9) (by decide) m1.digit_le (Nat.zero_le 2) (Nat.zero_le 2)
  ⟨h.1, h.2, rfl, rfl⟩

theorem hlt : Statement .hlt := fun _ =>
  have h := word_shape (op := 99) (by decide) (Nat.zero_le 2) (Nat.zero_le 2) (Nat.zero_le 2)
  ⟨h.1, h.2, rfl, rfl⟩

theorem illegal (w : Word) : Statement (.illegal w) := fun h => ⟨rfl, rfl, h⟩

end Sys2Proof.Laws.EncodedWord
end

