-- ==== Sys2Proof/Laws/Step.lean ====
section
/-! SUPPORT. What one Step can do: the inversion lemma of `step`, and running several of them. -/

namespace Sys2Proof.Machine

/-- The Step of a Halted machine is a no-op (40_cycle_and_operands.md R81). -/
theorem step_of_halted {s : State} (h : s.run = .halted) : step s = .next s := by
  simp [step, cycle, h]

/-- The Step of a running machine, by what it fetches and decodes. -/
theorem step_of_running {s : State} (h : s.run = .running) :
    (∃ w i, s.Holds s.pc.toInt w ∧ decode w = .ok i ∧ step s = exec i s) ∨
      (∃ w v, s.Holds s.pc.toInt w ∧ decode w = .error (.illegalMode v) ∧
        step s = .next (s.raise (.illegalMode v))) ∨
      (s.Outside s.pc.toInt ∧ step s = .next (s.raise (.addressOutOfRange s.pc.toInt))) := by
  cases hw : s.mem.memRead s.pc.toInt with
  | error e =>
    obtain ⟨ho, rfl⟩ := State.outside_iff.mp hw
    exact .inr (.inr ⟨ho, by simp [step, cycle, h, State.fetchDecode, hw, bind, Except.bind]⟩)
  | ok w =>
    cases hd : decode w with
    | ok i =>
      exact .inl ⟨w, i, State.holds_iff.mp hw, hd,
        by simp [step, cycle, h, State.fetchDecode, hw, hd, bind, Except.bind]⟩
    | error r =>
      cases r with
      | illegalMode v =>
        exact .inr (.inl ⟨w, v, State.holds_iff.mp hw, hd,
          by simp [step, cycle, h, State.fetchDecode, hw, hd, bind, Except.bind]⟩)

/-- Every Step answers a next state. -/
theorem step_answers (s : State) : ∃ t, step s = .next t := by
  cases h : s.run with
  | halted => exact ⟨s, step_of_halted h⟩
  | running =>
    obtain ⟨w, i, _, _, he⟩ | ⟨_, _, _, _, he⟩ | ⟨_, he⟩ := step_of_running h
    · obtain ⟨t, ht, _⟩ := exec_effect i s
      exact ⟨t, he.trans ht⟩
    · exact ⟨_, he⟩
    · exact ⟨_, he⟩

/-- The inversion lemma of `step`. -/
theorem step_cases {s t : State} (h : step s = .next t) :
    (s.run = .halted ∧ t = s) ∨
      s.run = .running ∧
        ((∃ w i, s.Holds s.pc.toInt w ∧ decode w = .ok i ∧ Effect i s t) ∨
          (∃ w v, s.Holds s.pc.toInt w ∧ decode w = .error (.illegalMode v) ∧ t = s.raise (.illegalMode v)) ∨
          (s.Outside s.pc.toInt ∧ t = s.raise (.addressOutOfRange s.pc.toInt))) := by
  cases hr : s.run with
  | halted => exact .inl ⟨rfl, by simpa [h] using step_of_halted hr⟩
  | running =>
    refine .inr ⟨rfl, ?_⟩
    obtain ⟨w, i, hw, hd, he⟩ | ⟨w, v, hw, hd, he⟩ | ⟨ho, he⟩ := step_of_running hr
    · exact .inl ⟨w, i, hw, hd, exec_cases (he.symm.trans h)⟩
    · exact .inr (.inl ⟨w, v, hw, hd, by simpa [h] using he⟩)
    · exact .inr (.inr ⟨ho, by simpa [h] using he⟩)

/-- k + 1 Steps are one Step and then k more. -/
theorem afterSteps_succ (k : Nat) {s t : State} (h : step s = .next t) :
    afterSteps (k + 1) s = afterSteps k t := by
  have h' : Host.Core.step Sys2Proof.core s = .next t := h
  simp only [afterSteps, Host.Core.run, h']
  rfl

@[simp] theorem afterSteps_zero (s : State) : afterSteps 0 s = .next s := rfl

/-- Any number of Steps answers a next state. -/
theorem afterSteps_answers (k : Nat) (s : State) : ∃ t, afterSteps k s = .next t := by
  induction k generalizing s with
  | zero => exact ⟨s, rfl⟩
  | succ k ih =>
    obtain ⟨t, ht⟩ := step_answers s
    exact afterSteps_succ k ht ▸ ih t

/-- Any property every Step keeps is kept by any number of Steps. -/
theorem afterSteps_keeps {P : State → Prop} (hstep : ∀ s t, P s → step s = .next t → P t) (k : Nat) {s t : State}
    (hs : P s) (h : afterSteps k s = .next t) : P t := by
  induction k generalizing s with
  | zero => exact (Host.Outcome.next.inj h : s = t) ▸ hs
  | succ k ih =>
    obtain ⟨u, hu⟩ := step_answers s
    exact ih (hstep s u hs hu) (by rwa [afterSteps_succ k hu] at h)

end Sys2Proof.Machine
end

