-- ==== Sys2Proof/Tests/Slice0.lean ====
section
/-! SUPPORT. The model's own tests, each about one Step on a small state, with the expected results taken
from the spec's examples (95_test_vectors.md) or worked out from its rules; and, for each statement with
hypotheses, a concrete state that meets them together. -/

namespace Sys2Proof.Tests

open Sys2Proof.Machine

/-! ### Helpers -/

/-- The state after reset with these words as PROGRAM and N their number, these answers at the input port,
and an accepting output port (95_test_vectors.md, Conventions). -/
def booted (words : List Word) (answers : List InputAnswer := []) : State :=
  { State.reset with
    mem := { capacity := words.length, cells := imageCells 0 words },
    source := { answers := answers, rest := .failure, consumed := 0 } }

/-- The state one Step later. -/
def after (s : State) : State :=
  match step s with
  | .next t => t
  | .fault _ => s
  | .refused _ => s

/-- Halted with this cause and information. -/
def faulted (s : State) (c : Cause) (info : Int) : Bool :=
  decide (s.run = .halted) && s.err && decide (s.cause = c) && decide (s.finfo.toInt = info)

/-! ### Well-formedness: an ILLEGAL instruction must hold a word that selects no instruction (R67, R68) -/

theorem test_illformed_listed_opcode : (Instr.illegal 1101).wellFormed = false := by decide
theorem test_illformed_halt_with_ignored_digits : (Instr.illegal 10099).wellFormed = false := by decide
theorem test_wellformed_negative : (Instr.illegal (-1101)).wellFormed = true := by decide
theorem test_wellformed_unlisted : (Instr.illegal 42).wellFormed = true := by decide

/-! ### Decoding: words written out from `opcode + 100*m1 + 1000*m2 + 10000*m3` (R61), vectors T1 to T30c -/

theorem test_decode_add : decode 21101 = .ok (.add .immediate .immediate .relative) := by decide
theorem test_decode_mul : decode 1002 = .ok (.mul .position .immediate .position) := by decide
theorem test_decode_in : decode 203 = .ok (.inp .relative) := by decide
theorem test_decode_out : decode 104 = .ok (.out .immediate) := by decide
theorem test_decode_jt : decode 1005 = .ok (.jt .position .immediate) := by decide
theorem test_decode_jf : decode 2006 = .ok (.jf .position .relative) := by decide
theorem test_decode_lt : decode 1107 = .ok (.lt .immediate .immediate .position) := by decide
theorem test_decode_eq : decode 20208 = .ok (.eq .relative .position .relative) := by decide
theorem test_decode_arb : decode 209 = .ok (.arb .relative) := by decide
theorem test_decode_hlt : decode 99 = .ok .hlt := by decide
theorem test_decode_missing_digits_are_position : decode 1 = .ok (.add .position .position .position) := by
  decide
theorem test_decode_ignores_unused_digits : decode 91105 = .ok (.jt .immediate .immediate) := by decide
theorem test_decode_ignores_digit_five : decode 100001 = .ok (.add .position .position .position) := by decide
theorem test_decode_negative_is_illegal : decode (-1101) = .ok (.illegal (-1101)) := by decide
theorem test_decode_unlisted_is_illegal : decode 12345 = .ok (.illegal 12345) := by decide
theorem test_decode_mode_three : decode 301 = .error (.illegalMode 301) := by decide
theorem test_decode_mode_nine_on_third : decode 90002 = .error (.illegalMode 90002) := by decide
theorem test_encode_add : encode (.add .immediate .immediate .relative) = 21101 := by decide
theorem test_table_word_out : decodeTableWord 64 4 = some (.out .position) := by decide
theorem test_table_word_rejects : decodeTableWord 64 404 = none := by decide
theorem test_assemble_add :
    assemble (.add .immediate .immediate .relative) [3, 4, 1] = some [21101, 3, 4, 1] := by decide

/-! ### Reset -/

/-- `State.reset` is reset with the empty PROGRAM and the ports of log entry 2. -/
theorem test_reset_is_construct :
    construct (2 ^ 63 - 4) [] { answers := [], rest := .notYet, consumed := 0 }
      { answers := [], rest := .accepted, accepted := [] } = some State.reset := rfl
/-- T130 -/
theorem test_reset_refused : construct 2 [3, 0, 99] State.reset.source State.reset.sink = none := by decide
theorem test_placed_word_runs_first : (after (State.reset.withFetchWord 64 1105)).pc = 3 := by decide

/-! ### One Step of each instruction -/

/-- T40 -/
theorem test_add_doubles_its_own_word : (after (booted [1, 0, 0, 0, 99])).mem.word 0 = 2 := by decide
/-- T47 -/
theorem test_add_wraps :
    (after (booted [1101, 9223372036854775807, 1, 5, 99, 0])).mem.word 5 = -9223372036854775808 := by decide
/-- T45 -/
theorem test_mul_signed : (after (booted [1102, -3, 7, 5, 99, 0])).mem.word 5 = -21 := by decide
/-- T49 -/
theorem test_mul_wraps :
    (after (booted [1102, -9223372036854775808, -1, 5, 99, 0])).mem.word 5 = -9223372036854775808 := by decide
/-- T91 -/
theorem test_lt_is_signed : (after (booted [1107, -1, 0, 5, 99, 7])).mem.word 5 = 1 := by decide
/-- T97 -/
theorem test_lt_extremes :
    (after (booted [1107, 9223372036854775807, -9223372036854775808, 5, 99, 7])).mem.word 5 = 0 := by decide
/-- T95 -/
theorem test_eq_overwrites_its_own_word : (after (booted [1008, 0, 1008, 0, 99])).mem.word 0 = 1 := by decide
/-- P4 -/
theorem test_eq_unequal : (after (booted [1108, 3, 5, 4, 7])).mem.word 4 = 0 := by decide
/-- T37 -/
theorem test_in_immediate_destination : (after (booted [103, 2, 99] [.value 55])).mem.word 2 = 55 := by decide
/-- T60: the value is not consumed -/
theorem test_in_checks_its_address_first :
    faulted (after (booted [3, 7, 99] [.value 1])) .addressOutOfRange 7 = true ∧
      (after (booted [3, 7, 99] [.value 1])).source.consumed = 0 := by decide
/-- T33 from its second Step -/
theorem test_out_relative :
    (after { booted [109, 1, 204, -1, 99] with pc := 2, rbo := 1 }).sink.accepted = [109] := by decide
/-- T61 -/
theorem test_out_on_a_closed_sink :
    faulted (after { booted [104, 9, 99] with sink := { answers := [], rest := .failure, accepted := [] } })
      .outputFailure 0 = true := by decide
/-- T70: exactly the target -/
theorem test_jt_taken : (after (booted [1105, 1, 4, 99, 1101, 0, 0, 0, 99])).pc = 4 := by decide
/-- T78: operand 2 is resolved though the jump is not taken -/
theorem test_jt_is_eager : faulted (after (booted [105, 0, 9, 99])) .addressOutOfRange 9 = true := by decide
/-- T75 -/
theorem test_jf_taken : (after (booted [6, 4, 5, 99, 0, 3])).pc = 3 := by decide
/-- T76 for JF -/
theorem test_jf_any_target : (after (booted [1106, 0, -7, 99])).pc = -7 := by decide
/-- T102 -/
theorem test_arb_relative : (after (booted [209, 1, 99])).rbo = 1 := by decide
/-- T104 from its second Step -/
theorem test_arb_wraps :
    (after { booted [109, 1, 99] with rbo := 9223372036854775807 }).rbo = -9223372036854775808 := by decide
/-- T107 -/
theorem test_hlt_advances : (after (booted [99])).pc = 1 ∧ (after (booted [99])).err = false := by decide
/-- T109 -/
theorem test_illegal_records_its_word :
    faulted (after (booted [42])) .illegalOpcode 42 = true ∧ (after (booted [42])).pc = 0 := by decide
/-- T112 -/
theorem test_illegal_negative : faulted (after (booted [-1])) .illegalOpcode (-1) = true := by decide

/-! ### Exceptions and their order -/

/-- T114: decode before any operand word is read -/
theorem test_illegal_mode_first : faulted (after (booted [90002])) .illegalMode 90002 = true := by decide
/-- T38 -/
theorem test_input_failure : faulted (after (booted [3, 0, 99])) .inputFailure 0 = true := by decide
/-- T124, T125, T126: the first bad operand is reported -/
theorem test_first_bad_operand :
    faulted (after (booted [1, 9, 9, 9])) .addressOutOfRange 9 = true ∧
      faulted (after (booted [1, 0, 8, 9])) .addressOutOfRange 8 = true ∧
      faulted (after (booted [21101, 1, 1, -5, 99])) .addressOutOfRange (-5) = true := by decide
/-- T106 from its second Step: the exact sum, not wrapped to 0 -/
theorem test_address_sum_is_exact :
    faulted (after { booted [204, -9223372036854775808, 99] with rbo := -9223372036854775808 })
      .addressOutOfRange (-18446744073709551616) = true := by decide
/-- T120: the machine of no words -/
theorem test_empty_memory : faulted (after (booted [])) .addressOutOfRange 0 = true := by decide
/-- T39: a stall changes nothing -/
theorem test_stall :
    after { booted [3, 0, 99] with source := { answers := [], rest := .notYet, consumed := 0 } } =
      { booted [3, 0, 99] with source := { answers := [], rest := .notYet, consumed := 0 } } := by decide

/-! ### Witnesses: for each statement with hypotheses, a concrete case that meets them -/

/-- ADD #50, #49, [4] before a word 0 that becomes HLT (P3). -/
def selfModifying : State := booted [1101, 50, 49, 4, 0]

theorem holds_fetch : selfModifying.Holds selfModifying.pc.toInt 1101 := by decide

theorem source1 : selfModifying.SourceIs 1 .immediate 50 := State.sourceValue_ok_iff.mp rfl
theorem source2 : selfModifying.SourceIs 2 .immediate 49 := State.sourceValue_ok_iff.mp rfl
theorem target3 : selfModifying.TargetIs 3 .position 4 := State.targetLocation_ok_iff.mp rfl

/-- ResetLeavesTheSpecifiedState, at the boundary L = N. -/
theorem witness_reset : ([1, 0, 0, 0, 99] : List Word).length ≤ 5 ∧ 5 ≤ 2 ^ 63 - 4 := by decide
/-- ResetIsRefusedOutsideItsPrecondition: both ways to be refused. -/
theorem witness_reset_refused :
    construct 0 [1] State.reset.source State.reset.sink = none ∧
      construct (2 ^ 63 - 3) [] State.reset.source State.reset.sink = none := by decide
/-- ResetEstablishesTheInvariant and ResetOfABlockForgetsItsState. -/
theorem witness_construct : ∃ t, (after (booted [42])).resetAgain 3 [3, 0, 99] = some t := ⟨_, rfl⟩

/-- The invariant of a small machine: EveryStepKeepsTheInvariant, StatusBitsAreConsistent. -/
theorem booted_inv : selfModifying.Inv := ⟨by decide, by decide, by decide, rfl, rfl⟩
theorem witness_step_inv : selfModifying.Inv ∧ ∃ t, step selfModifying = .next t :=
  ⟨booted_inv, step_answers _⟩

/-- HaltedMachineNeverMoves. -/
theorem witness_halted : (after (booted [99])).run = .halted := by decide
/-- An error-halted state of the invariant: the first clause of FaultRecordIsSticky, StatusBits. -/
theorem witness_error_inv : (after (booted [42])).Inv ∧ (after (booted [42])).err = true :=
  ⟨⟨by decide, by decide, by decide, rfl, 42, by decide, by decide⟩, by decide⟩
theorem witness_sticky :
    (after (booted [42])).Inv ∧ afterSteps 2 (after (booted [42])) = .next (after (booted [42])) :=
  ⟨witness_error_inv.1, rfl⟩
/-- The second clause of FaultRecordIsSticky, and AcceptedOutputIsNeverLost. -/
theorem witness_safe_run : selfModifying.Inv ∧ SafeRun 2 selfModifying (after (after selfModifying)) :=
  ⟨booted_inv, rfl, by decide⟩
/-- OnlyHaltOrExceptionLeavesRunning: by HLT and by an exception. -/
theorem witness_leaves_running :
    (booted [99]).Inv ∧ (booted [99]).run = .running ∧ (after (booted [99])).run = .halted ∧
      (booted [42]).Inv ∧ (booted [42]).run = .running ∧ (after (booted [42])).run = .halted :=
  ⟨⟨by decide, by decide, by decide, rfl, rfl⟩, by decide, by decide,
    ⟨by decide, by decide, by decide, rfl, rfl⟩, by decide, by decide⟩
/-- OnlyAdjustBaseWritesRbo. -/
theorem witness_rbo : (after (booted [109, 5, 99])).rbo ≠ (booted [109, 5, 99]).rbo := by decide
/-- StepWritesAtMostOneWord. -/
theorem witness_one_word : (after selfModifying).mem.word 4 ≠ selfModifying.mem.word 4 := by decide
/-- PortsMoveOnlyByInAndOut: the source and the sink do move. -/
theorem witness_ports :
    (after (booted [3, 2, 99] [.value 5])).source.consumed = 1 ∧
      (after (booted [104, 50, 99])).sink.accepted = [50] := by decide
/-- CompletingStepAdvancesByItsWidth, StepRunsTheDecodedInstruction. -/
theorem witness_advance :
    selfModifying.Inv ∧ selfModifying.run = .running ∧ selfModifying.Holds selfModifying.pc.toInt 1101 ∧
      decode 1101 = .ok (.add .immediate .immediate .position) ∧ (after selfModifying).err = false :=
  ⟨booted_inv, by decide, holds_fetch, by decide, by decide⟩
/-- CompletingStepAdvancesByItsWidth: its second and third ways, a taken jump and a stall. -/
theorem witness_advance_other :
    (after (booted [1105, 1, 0])).pc = 0 ∧ (after (booted [3, 0] [.notYet])).pc = 0 ∧
      (after (booted [3, 0] [.notYet])).err = false := by decide
/-- OtherInstructionsIgnoreThePorts. -/
theorem witness_other_instruction :
    (∀ m, Instr.hlt ≠ .inp m) ∧ (∀ m, Instr.hlt ≠ .out m) ∧ ∃ t, exec .hlt selfModifying = .next t :=
  ⟨by simp, by simp, _, rfl⟩
/-- CanonicalMemoryIsItsWords: a memory written and written back. -/
theorem witness_canonical :
    selfModifying.mem.wf = true ∧ (selfModifying.mem.setWord 4 7).wf = true ∧
      (selfModifying.mem.setWord 4 7).setWord 4 0 = selfModifying.mem := by decide
/-- FetchOutsideMemoryFaults, just past the end and just below 0. -/
theorem witness_fetch_outside :
    ({ selfModifying with pc := 5 } : State).Outside 5 ∧ ({ selfModifying with pc := -1 } : State).Outside (-1) := by
  decide
/-- UsedModeDigitAboveTwoIsIllegalMode, at the last digit an ADD uses and the least bad value. -/
theorem witness_illegal_mode :
    0 ≤ (30001 : Word).toInt ∧ (30001 : Word).toNat % 100 ∈ listedOpcodes ∧
      2 < operandCountOf ((30001 : Word).toNat % 100) ∧ 3 ≤ digit (30001 : Word).toNat (2 + 2) ∧
      (booted [30001]).run = .running ∧ (booted [30001]).Holds (booted [30001]).pc.toInt 30001 := by decide
/-- UnrecognizedWordIsIllegalOpcode: each of its three cases, the range at both ends. -/
theorem witness_unrecognized :
    (-1 : Word).toInt < 0 ∧ (100 : Word).toNat % 100 = 0 ∧ (10 : Word).toNat % 100 = 10 ∧
      (98 : Word).toNat % 100 = 98 ∧ (booted [98]).Holds (booted [98]).pc.toInt 98 := by decide
/-- DecodeOfEncodeIsTheInstruction and HigherDigitsAreIgnored. -/
theorem witness_encoding :
    (Instr.illegal 42).wellFormed = true ∧ (Instr.jt .immediate .immediate).opcode ≠ none ∧
      0 ≤ (91105 : Word).toInt ∧
      (91105 : Word).toNat % 10 ^ 4 = (encode (.jt .immediate .immediate)).toNat := by decide
/-- EveryWordFallsInOneClass: a word of each class. -/
theorem witness_classes :
    (-99 : Word).toInt < 0 ∧ (0 : Word).toNat % 100 ∉ listedOpcodes ∧
      (3 : Nat) ≤ digit (404 : Word).toNat (0 + 2) ∧ (404 : Word).toNat % 100 ∈ listedOpcodes ∧
      digit (22202 : Word).toNat (2 + 2) ≤ 2 ∧ (22202 : Word).toNat % 100 ∈ listedOpcodes := by decide
/-- PlacedInstructionRunsNext, its second clause too. -/
theorem witness_placed :
    decodeTableWord 64 1105 = some (.jt .immediate .immediate) ∧ selfModifying.run = .running ∧
      0 ≤ selfModifying.pc.toInt ∧ selfModifying.pc.toInt + 4 ≤ selfModifying.mem.capacity := by decide
/-- AddAndMulStoreTheWrappedResult, LtAndEqStoreOneOrZero: completion. -/
theorem witness_compute :
    selfModifying.SourceIs 1 .immediate 50 ∧ selfModifying.SourceIs 2 .immediate 49 ∧
      selfModifying.TargetIs 3 .position 4 := ⟨source1, source2, target3⟩
/-- The same, through position and relative mode, at the last index of memory. -/
theorem witness_compute_other_modes :
    ({ booted [20201, 1, 5, 3, 7, 8] with rbo := 2 } : State).SourceIs 1 .relative 3 ∧
      ({ booted [20201, 1, 5, 3, 7, 8] with rbo := 2 } : State).SourceIs 2 .position 8 ∧
      ({ booted [20201, 1, 5, 3, 7, 8] with rbo := 2 } : State).TargetIs 3 .relative 5 :=
  ⟨State.sourceValue_ok_iff.mp (by decide), State.sourceValue_ok_iff.mp (by decide),
    State.targetLocation_ok_iff.mp (by decide)⟩
/-- The same: an exception at each operand, of a data address and of an operand word. -/
theorem witness_compute_faults :
    (booted [1, 9, 9, 9]).SourceFaults 1 .position 9 ∧
      ((booted [1, 0, 8, 9]).SourceIs 1 .position 1 ∧ (booted [1, 0, 8, 9]).SourceFaults 2 .position 8) ∧
      ((booted [1, 0, 0]).SourceIs 1 .position 1 ∧ (booted [1, 0, 0]).SourceIs 2 .position 1 ∧
        (booted [1, 0, 0]).TargetFaults 3 .position 3) :=
  ⟨.inr ⟨9, by decide, by decide⟩,
    ⟨State.sourceValue_ok_iff.mp (by decide), .inr ⟨8, by decide, by decide⟩⟩,
    State.sourceValue_ok_iff.mp (by decide), State.sourceValue_ok_iff.mp (by decide),
    .inl ⟨by decide, by decide⟩⟩
/-- InStoresOneConsumedValue: each answer of the port, and a bad address. -/
theorem witness_in :
    (booted [3, 0] [.value 5]).TargetIs 1 .position 0 ∧ (booted [3, 0] [.value 5]).source.answer = .value 5 ∧
      (booted [3, 0] [.notYet]).source.answer = .notYet ∧ (booted [3, 0]).source.answer = .failure ∧
      (booted [3, 2]).TargetFaults 1 .position 2 :=
  ⟨State.targetLocation_ok_iff.mp (by decide), by decide, by decide, by decide,
    .inr ⟨2, by decide, by decide, by decide⟩⟩
/-- OutProducesItsValue: each answer of the port, and a bad address. -/
theorem witness_out :
    (booted [104, 50]).SourceIs 1 .immediate 50 ∧ (booted [104, 50]).sink.answer = .accepted ∧
      (Sink.mk [.notYet] .accepted []).answer = .notYet ∧ (Sink.mk [] .failure []).answer = .failure ∧
      (booted [4, -1]).SourceFaults 1 .position (-1) :=
  ⟨State.sourceValue_ok_iff.mp (by decide), by decide, by decide, by decide,
    .inr ⟨-1, by decide, by decide⟩⟩
/-- JumpsTakeExactlyTheirTarget: both conditions, and an exception at each operand. -/
theorem witness_jumps :
    (booted [1105, 1, 4]).SourceIs 1 .immediate 1 ∧ (booted [1105, 1, 4]).SourceIs 2 .immediate 4 ∧
      (booted [1105, 0, 4]).SourceIs 1 .immediate 0 ∧ (booted [5, 9, 0]).SourceFaults 1 .position 9 ∧
      (booted [105, 0, 9]).SourceIs 1 .immediate 0 ∧ (booted [105, 0, 9]).SourceFaults 2 .position 9 :=
  ⟨State.sourceValue_ok_iff.mp (by decide), State.sourceValue_ok_iff.mp (by decide),
    State.sourceValue_ok_iff.mp (by decide), .inr ⟨9, by decide, by decide⟩,
    State.sourceValue_ok_iff.mp (by decide), .inr ⟨9, by decide, by decide⟩⟩
/-- ArbAddsToTheBase. -/
theorem witness_arb : (booted [109, 5]).SourceIs 1 .immediate 5 ∧ (booted [9, 7]).SourceFaults 1 .position 7 :=
  ⟨State.sourceValue_ok_iff.mp (by decide), .inr ⟨7, by decide, by decide⟩⟩
/-- HltHaltsCleanly: a word of many digits. -/
theorem witness_hlt : 0 ≤ (10099 : Word).toInt ∧ (10099 : Word).toNat % 100 = 99 := by decide
/-- FrameOfStoringInstructions and FrameOfOtherInstructions: a location, and none. -/
theorem witness_frames :
    (∃ t, exec (.add .immediate .immediate .position) selfModifying = .next t) ∧
      selfModifying.targetLocation 3 .position = .ok 4 ∧
      (booted [3, 2]).targetLocation 1 .position = .error (.addressOutOfRange 2) ∧
      (∃ t, exec .hlt selfModifying = .next t) := ⟨⟨_, rfl⟩, rfl, rfl, _, rfl⟩
/-- StoreIsSeenByTheNextFetch. -/
theorem witness_store_seen :
    selfModifying.run = .running ∧ selfModifying.mem.capacity ≤ 2 ^ 63 - 4 ∧
      selfModifying.TargetIs 3 .position (selfModifying.pc.toInt + 4) ∧
      decode (wrap ((50 : Word).toInt + (49 : Word).toInt)) = .ok .hlt :=
  ⟨by decide, by decide, target3, by decide⟩
/-- BadJumpTargetFaultsAtTheNextFetch: a JT and a JF. -/
theorem witness_bad_jump :
    (booted [1105, 1, -7]).SourceIs 1 .immediate 1 ∧ (booted [1105, 1, -7]).SourceIs 2 .immediate (-7) ∧
      (booted [1105, 1, -7]).Outside (-7) ∧ decode 1105 = .ok (.jt .immediate .immediate) ∧
      (booted [1106, 0, 3]).SourceIs 1 .immediate 0 ∧ (booted [1106, 0, 3]).SourceIs 2 .immediate 3 ∧
      (booted [1106, 0, 3]).Outside 3 ∧ decode 1106 = .ok (.jf .immediate .immediate) :=
  ⟨State.sourceValue_ok_iff.mp (by decide), State.sourceValue_ok_iff.mp (by decide), by decide, by decide,
    State.sourceValue_ok_iff.mp (by decide), State.sourceValue_ok_iff.mp (by decide), by decide, by decide⟩
/-- EndlessStallChangesNothing and StalledInCompletesWhenSupplied: an IN, and an OUT. -/
theorem witness_stall :
    (State.reset.withFetchWord 64 3).run = .running ∧
      (State.reset.withFetchWord 64 3).Holds (State.reset.withFetchWord 64 3).pc.toInt 3 ∧
      decode 3 = .ok (.inp .position) ∧ (State.reset.withFetchWord 64 3).TargetIs 1 .position 0 ∧
      (State.reset.withFetchWord 64 3).source.answers = [] ∧
      (State.reset.withFetchWord 64 3).source.rest = .notYet ∧
      (booted [104, 50]).SourceIs 1 .immediate 50 ∧ decode 104 = .ok (.out .immediate) ∧
      (Sink.mk [] .notYet []).rest = .notYet :=
  ⟨by decide, by decide, by decide, State.targetLocation_ok_iff.mp (by decide), by decide, by decide,
    State.sourceValue_ok_iff.mp (by decide), by decide, rfl⟩

end Sys2Proof.Tests
end

section
/-! PROOFS. What later proofs need of words and of the decoder: `wrap` as the congruent word, the exact
contents of `finfo`, and which word an answer of `decode` carries. -/

namespace Sys2Proof

/-- The value of `wrap v` is the balanced remainder of v modulo 2^64. -/
theorem wrap_toInt (v : Int) : (wrap v).toInt = v.bmod (2 ^ 64) := BitVec.toInt_ofInt v

/-- A word is `wrap v` exactly when it is congruent to v: both are the balanced remainder modulo 2^64
(00_scope.md R8). -/
theorem eq_wrap_iff_dvd (v : Int) (w : Word) : w = wrap v ↔ ((2 ^ 64 : Nat) : Int) ∣ w.toInt - v := by
  calc w = wrap v ↔ w.toInt = v.bmod (2 ^ 64) := by rw [← BitVec.toInt_inj, wrap_toInt]
    _ ↔ w.toInt.bmod (2 ^ 64) = v.bmod (2 ^ 64) := by rw [BitVec.toInt_bmod_cancel]
    _ ↔ (w.toInt - v).bmod (2 ^ 64) = 0 := Int.bmod_eq_bmod_iff_bmod_sub_eq_zero
    _ ↔ ((2 ^ 64 : Nat) : Int) ∣ w.toInt - v := Int.dvd_iff_bmod_eq_zero.symm

/-- Settles O27: the congruent words are those with the balanced remainder of v modulo 2^64. -/
theorem wrapIsTheCongruentWord : Obligations.WrapIsTheCongruentWord := by
  intro v w
  exact_mod_cast (eq_wrap_iff_dvd v w).symm

/-! ### The word an answer of the decoder carries -/

/-- The decoder's answer for the word w is an instruction of a listed opcode, or names w itself: as ILLEGAL
or as a word with an illegal mode. -/
def NamesItsWord (w : Word) (r : Except DecodeReject Instr) : Prop :=
  (∃ i, r = .ok i ∧ i.opcode ≠ none) ∨ r = .ok (.illegal w) ∨ r = .error (.illegalMode w)

theorem decode1_namesItsWord (w : Word) {k : Mode → Instr} (hk : ∀ m1, (k m1).opcode ≠ none) :
    NamesItsWord w (decode1 w k) := by
  unfold decode1
  split
  · exact .inl ⟨_, rfl, hk _⟩
  · exact .inr (.inr rfl)

theorem decode2_namesItsWord (w : Word) {k : Mode → Mode → Instr} (hk : ∀ m1 m2, (k m1 m2).opcode ≠ none) :
    NamesItsWord w (decode2 w k) := by
  unfold decode2
  split
  · exact .inl ⟨_, rfl, hk _ _⟩
  · exact .inr (.inr rfl)

theorem decode3_namesItsWord (w : Word) {k : Mode → Mode → Mode → Instr}
    (hk : ∀ m1 m2 m3, (k m1 m2 m3).opcode ≠ none) : NamesItsWord w (decode3 w k) := by
  unfold decode3
  split
  · exact .inl ⟨_, rfl, hk _ _ _⟩
  · exact .inr (.inr rfl)

/-- By the rows of the opcode table, together where they have equally many operands: ADD, MUL, LT, EQ with
three, IN, OUT, ARB with one, JT, JF with two, then HLT and the unlisted opcodes. -/
theorem decodeOpcode_namesItsWord (w : Word) (op : Nat) : NamesItsWord w (decodeOpcode w op) := by
  unfold decodeOpcode
  split
  case h_1 | h_2 | h_7 | h_8 => exact decode3_namesItsWord w (by simp [Instr.opcode])
  case h_3 | h_4 | h_9 => exact decode1_namesItsWord w (by simp [Instr.opcode])
  case h_5 | h_6 => exact decode2_namesItsWord w (by simp [Instr.opcode])
  case h_10 => exact .inl ⟨.hlt, rfl, by simp [Instr.opcode]⟩
  case h_11 => exact .inr (.inl rfl)

theorem decode_namesItsWord (w : Word) : NamesItsWord w (decode w) := by
  unfold decode
  split
  · exact .inr (.inl rfl)
  · exact decodeOpcode_namesItsWord w _

/-- An ILLEGAL answer carries the word that was decoded (45_base_halt_illegal.md R142). -/
theorem eq_of_decode_illegal {w v : Word} (h : decode w = .ok (.illegal v)) : v = w := by
  obtain ⟨i, hi, hop⟩ | hi | hi := decode_namesItsWord w
  · obtain rfl : i = .illegal v := by simpa [hi] using h
    exact absurd rfl hop
  · simpa [hi, eq_comm] using h
  · simp [hi] at h

/-- An illegal-mode answer carries the word that was decoded (30_encoding.md R69). -/
theorem eq_of_decode_illegalMode {w v : Word} (h : decode w = .error (.illegalMode v)) : v = w := by
  obtain ⟨i, hi, _⟩ | hi | hi := decode_namesItsWord w
  · simp [hi] at h
  · simp [hi] at h
  · simpa [hi, eq_comm] using h

end Sys2Proof

namespace Sys2Proof.Machine

/-- `finfo` holds every integer of W + 1 bits exactly (10_state.md R27). -/
theorem infoOf_toInt {x : Int} (lo : -(2 ^ 64) ≤ x) (hi : x < 2 ^ 64) : (infoOf x).toInt = x :=
  BitVec.toInt_ofInt_eq_self (by decide) lo hi

/-- `finfo` holds every Word exactly. -/
theorem infoOf_word_toInt (w : Word) : (infoOf w.toInt).toInt = w.toInt := by
  have lo := w.le_toInt
  have hi := w.toInt_lt
  exact infoOf_toInt (by omega) (by omega)

end Sys2Proof.Machine
end

section
/-! PROOFS. The invariant under each named update of the state, under taking an exception, and so under
every Step; and after reset. -/

namespace Sys2Proof.Machine

namespace State.Inv

/-! ### The updates that leave memory and the fault record as they are -/

theorem setPc {s : State} (h : s.Inv) (v : Word) : (s.setPc v).Inv :=
  ⟨h.memWf, h.capacityBound, h.errHalted, h.record⟩

theorem advance {s : State} (h : s.Inv) (c : Nat) : (s.advance c).Inv := h.setPc _

theorem setRbo {s : State} (h : s.Inv) (v : Word) : (s.setRbo v).Inv :=
  ⟨h.memWf, h.capacityBound, h.errHalted, h.record⟩

theorem setSource {s : State} (h : s.Inv) (q : Source) : (s.setSource q).Inv :=
  ⟨h.memWf, h.capacityBound, h.errHalted, h.record⟩

theorem setSink {s : State} (h : s.Inv) (q : Sink) : (s.setSink q).Inv :=
  ⟨h.memWf, h.capacityBound, h.errHalted, h.record⟩

theorem halt {s : State} (h : s.Inv) : s.halt.Inv :=
  ⟨h.memWf, h.capacityBound, fun _ => rfl, h.record⟩

/-! ### A store -/

/-- A store inside memory keeps the canonical form, and the capacity the record is read against. -/
theorem store {s : State} (h : s.Inv) {i : Nat} {m : Mode} {t : Int} (ht : s.TargetIs i m t) (v : Word) :
    (s.setMem (s.mem.setWord t.toNat v)).Inv := by
  obtain ⟨h0, hN, _⟩ := ht
  exact ⟨Memory.wf_setWord v (by omega) h.memWf, h.capacityBound, h.errHalted, h.record⟩

end State.Inv

/-! ### Taking an exception -/

/-- What holds when the machine raises the exception e in state s (60_exceptions.md R150): the word is one
the decoder answers in that way, or the address is outside memory and `finfo` can hold it. -/
def State.MayRaise (s : State) : Trap → Prop
  | .illegalOpcode w => decode w = .ok (.illegal w)
  | .addressOutOfRange a => s.Outside a ∧ (infoOf a).toInt = a
  | .illegalMode w => decode w = .error (.illegalMode w)
  | .inputFailure => True
  | .outputFailure => True

/-- The record an exception leaves fits its cause. -/
theorem State.MayRaise.recordFits {s : State} {e : Trap} (he : s.MayRaise e) : (s.raise e).RecordFits := by
  cases e with
  | illegalOpcode w => exact ⟨rfl, w, he, infoOf_word_toInt w⟩
  | addressOutOfRange a =>
    obtain ⟨ho, ha⟩ := he
    exact ⟨rfl, show s.Outside (infoOf a).toInt from ha.symm ▸ ho⟩
  | illegalMode w => exact ⟨rfl, w, he, infoOf_word_toInt w⟩
  | inputFailure => exact ⟨rfl, rfl⟩
  | outputFailure => exact ⟨rfl, rfl⟩

theorem State.Inv.raise {s : State} (h : s.Inv) {e : Trap} (he : s.MayRaise e) : (s.raise e).Inv :=
  ⟨h.memWf, h.capacityBound, fun _ => rfl, he.recordFits⟩

/-! ### A Step -/

/-- Every effect of an instruction that the decoder answered keeps the invariant. -/
theorem Effect.keeps_inv {w : Word} {i : Instr} {s t : State} (hd : decode w = .ok i) (hs : s.Inv)
    (he : Effect i s t) : t.Inv := by
  cases he with
  | outOfRange x hx lo hi _ => exact hs.raise (e := .addressOutOfRange x) ⟨hx, infoOf_toInt lo hi⟩
  | stored _ _ _ _ v ht _ => exact (hs.store ht v).advance 3
  | input _ _ v _ ht _ => exact ((hs.store ht v).setSource _).advance 1
  | inputWait => exact hs.setSource _
  | inputFail => exact hs.raise trivial
  | output => exact (hs.setSink _).advance 1
  | outputWait => exact hs.setSink _
  | outputFail => exact hs.raise trivial
  | jumped _ _ _ b => exact hs.setPc b
  | fellThrough => exact hs.advance 2
  | adjusted => exact (hs.setRbo _).advance 1
  | halted => exact hs.halt.advance 0
  | illegal v hi =>
    subst hi
    obtain rfl := eq_of_decode_illegal hd
    exact hs.raise (e := .illegalOpcode v) hd

theorem step_keeps_inv {s t : State} (hs : s.Inv) (h : step s = .next t) : t.Inv := by
  obtain ⟨_, rfl⟩ | ⟨_, ⟨w, i, _, hd, he⟩ | ⟨w, v, _, hd, rfl⟩ | ⟨ho, rfl⟩⟩ := step_cases h
  · exact hs
  · exact he.keeps_inv hd hs
  · obtain rfl := eq_of_decode_illegalMode hd
    exact hs.raise (e := .illegalMode v) hd
  · exact hs.raise (e := .addressOutOfRange s.pc.toInt) ⟨ho, infoOf_word_toInt s.pc⟩

/-- Settles O4: by the inversion lemma of `step`, and one lemma per update an effect is made of. -/
theorem everyStepKeepsTheInvariant : Obligations.EveryStepKeepsTheInvariant :=
  fun _ _ hs h => step_keeps_inv hs h

/-! ### Reset -/

/-- Everything reset can answer when it is not refused: its precondition held, and the state is the one
70_reset_and_hazards.md R180 gives. -/
theorem construct_eq_some_iff {n : Nat} {program : List Word} {source : Source} {sink : Sink} {s : State} :
    construct n program source sink = some s ↔
      (program.length ≤ n ∧ n ≤ Config.maxCapacity) ∧
        { pc := 0, rbo := 0, mem := { capacity := n, cells := imageCells 0 program }, run := .running,
          err := false, cause := .none, finfo := 0, source := source, sink := sink } = s := by
  simp [construct]

theorem construct_inv {n : Nat} {program : List Word} {source : Source} {sink : Sink} {s : State}
    (h : construct n program source sink = some s) : s.Inv := by
  obtain ⟨⟨hlen, hcap⟩, rfl⟩ := construct_eq_some_iff.mp h
  exact ⟨cellsWf_imageCells ((Nat.zero_add _).trans_le hlen), hcap, nofun, rfl, rfl⟩

/-- `State.reset` is reset with the capacity and the ports of log entries 1 and 2. -/
theorem construct_resetCapacity :
    construct Config.resetCapacity [] State.reset.source State.reset.sink = some State.reset := rfl

/-- Settles O3: `State.reset` is a reset too, and an image laid out from index 0 is canonical. -/
theorem resetEstablishesTheInvariant : Obligations.ResetEstablishesTheInvariant :=
  ⟨construct_inv construct_resetCapacity, fun _ _ _ _ _ h => construct_inv h⟩

end Sys2Proof.Machine
end

section
/-! PROOFS. What an instruction, and so a Step, does to each piece of state (10_state.md R34): the frame of
every effect, said once per field, and the claims that follow from it. -/

namespace Sys2Proof.Machine

/-! ### Exceptions in the words of the claims -/

theorem State.raise_eq_errorHalt (s : State) (e : Trap) : s.raise e = s.errorHalt e.cause e.info := rfl

theorem Trap.cause_ne_none (e : Trap) : e.cause ≠ .none := by cases e <;> simp [Trap.cause]

/-- The information of an exception can be read back from the `finfo` it left. -/
theorem State.raise_eq_errorHalt_finfo (s : State) (e : Trap) :
    s.raise e = s.errorHalt e.cause (s.raise e).finfo.toInt := by
  simp only [State.errorHalt, BitVec.ofInt_toInt]
  rfl

/-! ### A store and the words beside it -/

theorem Memory.word_setWord_other {m : Memory} {a b : Nat} (v : Word) (h : b ≠ a) :
    (m.setWord a v).word b = m.word b := by
  rw [Memory.word_setWord, if_neg h]

theorem Memory.eq_of_word_setWord_ne {m : Memory} {a b : Nat} {v : Word}
    (h : (m.setWord a v).word b ≠ m.word b) : b = a :=
  by_contra fun hne => h (Memory.word_setWord_other v hne)

/-- A store at the location of a destination leaves every word but the one the resolver computes. -/
theorem State.TargetIs.word_setWord {s : State} {n : Nat} {m : Mode} {t : Int} (ht : s.TargetIs n m t) (v : Word)
    (loc : Int) (a : Nat) (hloc : s.targetLocation n m = .ok loc) (ha : a ≠ loc.toNat) :
    (s.mem.setWord t.toNat v).word a = s.mem.word a := by
  obtain rfl : t = loc := by simpa [State.targetLocation_ok_iff.mpr ht] using hloc
  exact Memory.word_setWord_other v ha

/-! ### The frame of every effect, field by field -/

namespace Effect

variable {i : Instr} {s t : State}

/-- Only ARB writes `rbo` (10_state.md R24). -/
theorem rbo (he : Effect i s t) :
    t.rbo = s.rbo ∨ ∃ m a, i = .arb m ∧ s.SourceIs 1 m a ∧ t.rbo = wrap (s.rbo.toInt + a.toInt) := by
  cases he with
  | adjusted m a hi h => exact .inr ⟨m, a, hi, h, rfl⟩
  | _ => exact .inl rfl

/-- Only an instruction with a destination writes memory: one word, at the location of the destination
(20_memory.md R43, R44). -/
theorem mem (he : Effect i s t) :
    t.mem = s.mem ∨ ∃ n m loc v, Role.destination ∈ i.roles ∧ s.TargetIs n m loc ∧
      t.mem = s.mem.setWord loc.toNat v := by
  cases he with
  | stored m1 m2 m3 loc v ht hi =>
    refine .inr ⟨3, m3, loc, v, ?_, ht, rfl⟩
    obtain rfl | rfl | rfl | rfl := hi <;> simp [Instr.roles]
  | input m loc v hi ht => exact .inr ⟨1, m, loc, v, by simp [hi, Instr.roles], ht, rfl⟩
  | _ => exact .inl rfl

/-- Only IN moves the source: it withdraws a not-yet, or consumes a value. -/
theorem source (he : Effect i s t) :
    t.source = s.source ∨ ∃ m, i = .inp m ∧
      (t.source = s.source.waited ∨ t.source = s.source.delivered ∧ ∃ v, s.source.answer = .value v) := by
  cases he with
  | input m _ v hi _ ha => exact .inr ⟨m, hi, .inr ⟨rfl, v, ha⟩⟩
  | inputWait m _ hi => exact .inr ⟨m, hi, .inl rfl⟩
  | _ => exact .inl rfl

/-- Only OUT moves the sink: it withdraws a not-yet, or produces its operand. -/
theorem sink (he : Effect i s t) :
    t.sink = s.sink ∨ ∃ m, i = .out m ∧
      (t.sink = s.sink.waited ∨
        ∃ a, s.SourceIs 1 m a ∧ s.sink.answer = .accepted ∧ t.sink = s.sink.took a) := by
  cases he with
  | output m a hi h ha => exact .inr ⟨m, hi, .inr ⟨a, h, ha, rfl⟩⟩
  | outputWait m _ hi => exact .inr ⟨m, hi, .inl rfl⟩
  | _ => exact .inl rfl

/-- Only HLT and exceptions write the status registers. -/
theorem status (he : Effect i s t) :
    (t.run = s.run ∧ t.err = s.err ∧ t.cause = s.cause ∧ t.finfo = s.finfo) ∨
      (i = .hlt ∧ t = s.halt.advance 0) ∨ ∃ e, t = s.raise e := by
  cases he with
  | outOfRange | inputFail | outputFail | illegal => exact .inr (.inr ⟨_, rfl⟩)
  | halted hi => exact .inr (.inl ⟨hi, rfl⟩)
  | _ => exact .inl ⟨rfl, rfl, rfl, rfl⟩

/-- Where an effect leaves `pc`: past the instruction, at the target of a taken jump, or where it was, of a
stall or an exception (40_cycle_and_operands.md R89, R91; 43_jumps.md R122). -/
theorem pc (he : Effect i s t) :
    t.pc = wrap (s.pc.toInt + 1 + i.modes.length) ∨
      (∃ m1 m2 a b, s.SourceIs 1 m1 a ∧ s.SourceIs 2 m2 b ∧
        (i = .jt m1 m2 ∧ a ≠ 0 ∨ i = .jf m1 m2 ∧ a = 0) ∧ t.pc = b) ∨
      (t.pc = s.pc ∧ ((∃ m, i = .inp m) ∧ s.source.answer = .notYet ∨
        (∃ m, i = .out m) ∧ s.sink.answer = .notYet)) ∨
      ∃ e, t = s.raise e := by
  cases he with
  | outOfRange | inputFail | outputFail | illegal => exact .inr (.inr (.inr ⟨_, rfl⟩))
  | stored _ _ _ _ _ _ hi => obtain rfl | rfl | rfl | rfl := hi <;> exact .inl rfl
  | fellThrough _ _ _ _ hi => obtain ⟨rfl, _⟩ | ⟨rfl, _⟩ := hi <;> exact .inl rfl
  | input _ _ _ hi | output _ _ hi | adjusted _ _ hi | halted hi => exact .inl (hi ▸ rfl)
  | jumped m1 m2 a b hi h1 h2 => exact .inr (.inl ⟨m1, m2, a, b, h1, h2, hi, rfl⟩)
  | inputWait m _ hi _ ha => exact .inr (.inr (.inl ⟨rfl, .inl ⟨⟨m, hi⟩, ha⟩⟩))
  | outputWait m _ hi _ ha => exact .inr (.inr (.inl ⟨rfl, .inr ⟨⟨m, hi⟩, ha⟩⟩))

/-! ### The instructions that store, as whole next states -/

/-- ADD, MUL, LT and EQ store one word and advance, or raise AddressOutOfRange. -/
theorem of_computes {m1 m2 m3 : Mode} (he : Effect i s t)
    (hi : i = .add m1 m2 m3 ∨ i = .mul m1 m2 m3 ∨ i = .lt m1 m2 m3 ∨ i = .eq m1 m2 m3) :
    (∃ loc v, s.TargetIs 3 m3 loc ∧ t = (s.setMem (s.mem.setWord loc.toNat v)).advance 3) ∨
      ∃ x, t = s.raise (.addressOutOfRange x) := by
  cases he with
  | outOfRange x => exact .inr ⟨x, rfl⟩
  | stored n1 n2 n3 loc v ht hi' =>
    obtain rfl : n3 = m3 := by obtain rfl | rfl | rfl | rfl := hi' <;> simp_all
    exact .inl ⟨loc, v, ht, rfl⟩
  | _ => obtain rfl | rfl | rfl | rfl := hi <;> simp_all

/-- IN stores one word and advances, or waits, or raises an exception. -/
theorem of_inp {m : Mode} (he : Effect (.inp m) s t) :
    (∃ loc v, s.TargetIs 1 m loc ∧
        t = ((s.setMem (s.mem.setWord loc.toNat v)).setSource s.source.delivered).advance 1) ∨
      (∃ loc, s.TargetIs 1 m loc ∧ t = s.setSource s.source.waited) ∨ ∃ e, t = s.raise e := by
  cases he with
  | outOfRange | inputFail => exact .inr (.inr ⟨_, rfl⟩)
  | input n loc v hi ht => exact .inl ⟨loc, v, Instr.inp.inj hi ▸ ht, rfl⟩
  | inputWait n loc hi ht => exact .inr (.inl ⟨loc, Instr.inp.inj hi ▸ ht, rfl⟩)
  | _ => simp_all

end Effect

/-! ### Claims about one instruction -/

/-- Settles O36: by the whole next states of the five instructions, and the frame of one store. -/
theorem frameOfStoringInstructions : Obligations.FrameOfStoringInstructions := by
  intro s t m1 m2 m3
  constructor
  · intro i hi h
    obtain ⟨loc, v, ht, rfl⟩ | ⟨x, rfl⟩ := (exec_cases h).of_computes (by simpa using hi)
    · exact ⟨rfl, rfl, rfl, rfl, ht.word_setWord v,
        fun hno => absurd (State.targetLocation_ok_iff.mpr ht) (hno loc), .inl ⟨rfl, rfl, rfl, rfl⟩⟩
    · exact ⟨rfl, rfl, rfl, rfl, fun _ _ _ _ => rfl, fun _ => rfl, .inr (s.raise_eq_errorHalt_finfo _)⟩
  · intro h
    obtain ⟨loc, v, ht, rfl⟩ | ⟨loc, ht, rfl⟩ | ⟨e, rfl⟩ := (exec_cases h).of_inp
    · exact ⟨rfl, rfl, rfl, ht.word_setWord v,
        fun hno => absurd (State.targetLocation_ok_iff.mpr ht) (hno loc), .inl ⟨rfl, rfl, rfl, rfl⟩⟩
    · exact ⟨rfl, rfl, rfl, fun _ _ _ _ => rfl,
        fun hno => absurd (State.targetLocation_ok_iff.mpr ht) (hno loc), .inl ⟨rfl, rfl, rfl, rfl⟩⟩
    · exact ⟨rfl, rfl, rfl, fun _ _ _ _ => rfl, fun _ => ⟨rfl, rfl⟩,
        .inr ⟨_, s.raise_eq_errorHalt_finfo e⟩⟩

/-- Settles O37: field by field, by the frame of every effect; none of these instructions has a destination. -/
theorem frameOfOtherInstructions : Obligations.FrameOfOtherInstructions := by
  intro s t m1 m2 w i hi h
  have he := exec_cases h
  have hroles : Role.destination ∉ i.roles := by
    simp only [List.mem_cons, List.not_mem_nil, or_false] at hi
    obtain rfl | rfl | rfl | rfl | rfl | rfl := hi <;> simp [Instr.roles]
  refine ⟨?_, ?_, ?_, ?_, ?_, ?_⟩
  · obtain hm | ⟨_, _, _, _, hd, _⟩ := he.mem
    · exact hm
    · exact absurd hd hroles
  · obtain hs | ⟨m, rfl, _⟩ := he.source
    · exact hs
    · simp at hi
  · obtain hr | ⟨m, a, rfl, _⟩ := he.rbo
    · exact .inl hr
    · exact .inr (by simpa using hi)
  · obtain hk | ⟨m, rfl, _⟩ := he.sink
    · exact .inl hk
    · exact .inr (by simpa using hi)
  · obtain ⟨hr, _⟩ | ⟨hhlt, _⟩ | ⟨e, rfl⟩ := he.status
    · exact .inl hr
    · exact .inr (.inl hhlt)
    · exact .inr (.inr ⟨_, s.raise_eq_errorHalt_finfo e⟩)
  · obtain ⟨_, hrec⟩ | ⟨_, rfl⟩ | ⟨e, rfl⟩ := he.status
    · exact .inl hrec
    · exact .inl ⟨rfl, rfl, rfl⟩
    · exact .inr ⟨_, s.raise_eq_errorHalt_finfo e⟩

/-! ### Claims about one Step -/

/-- Everything a Step can do: nothing, or an exception, or the effect of the instruction it decoded. -/
theorem step_changes {s t : State} (h : step s = .next t) :
    t = s ∨ (∃ e, t = s.raise e) ∨
      ∃ w i, s.Holds s.pc.toInt w ∧ decode w = .ok i ∧ Effect i s t := by
  obtain ⟨_, rfl⟩ | ⟨_, hrun | ⟨_, v, _, _, rfl⟩ | ⟨_, rfl⟩⟩ := step_cases h
  · exact .inl rfl
  · exact .inr (.inr hrun)
  · exact .inr (.inl ⟨_, rfl⟩)
  · exact .inr (.inl ⟨_, rfl⟩)

/-- Settles O9: ARB is the only effect that writes `rbo`. -/
theorem onlyAdjustBaseWritesRbo : Obligations.OnlyAdjustBaseWritesRbo := by
  intro s t h hne
  obtain rfl | ⟨e, rfl⟩ | ⟨w, i, hw, hd, he⟩ := step_changes h
  · exact absurd rfl hne
  · exact absurd rfl hne
  · obtain hr | ⟨m, a, rfl, ha, hr⟩ := he.rbo
    · exact absurd hr hne
    · exact ⟨w, m, a, hw, hd, ha, hr⟩

/-- What a Step does to memory: nothing, or one store at the location of a destination of the instruction
it decoded. -/
theorem step_mem {s t : State} (h : step s = .next t) :
    t.mem = s.mem ∨ ∃ w i n m loc v, s.Holds s.pc.toInt w ∧ decode w = .ok i ∧
      Role.destination ∈ i.roles ∧ s.TargetIs n m loc ∧ t.mem = s.mem.setWord loc.toNat v := by
  obtain rfl | ⟨e, rfl⟩ | ⟨w, i, hw, hd, he⟩ := step_changes h
  · exact .inl rfl
  · exact .inl rfl
  · obtain hm | ⟨n, m, loc, v, hrole, ht, hm⟩ := he.mem
    · exact .inl hm
    · exact .inr ⟨w, i, n, m, loc, v, hw, hd, hrole, ht, hm⟩

/-- Settles O10: a word that changed is the one at the location of the one store. -/
theorem stepWritesAtMostOneWord : Obligations.StepWritesAtMostOneWord := by
  intro s t h
  obtain hm | ⟨w, i, n, m, loc, v, hw, hd, hrole, ⟨h0, hN, _⟩, hm⟩ := step_mem h
  · rw [hm]
    exact ⟨rfl, fun _ _ ha => absurd rfl ha, fun _ ha => absurd rfl ha⟩
  · have hloc : ∀ a, t.mem.word a ≠ s.mem.word a → a = loc.toNat := fun a ha =>
      Memory.eq_of_word_setWord_ne (hm ▸ ha)
    refine ⟨by rw [hm, Memory.setWord_capacity], fun a b ha hb => (hloc a ha).trans (hloc b hb).symm, ?_⟩
    intro a ha
    have := hloc a ha
    exact ⟨by omega, w, i, hw, hd, hrole⟩

/-- Settles O11: by what IN does to the source and OUT to the sink. -/
theorem portsMoveOnlyByInAndOut : Obligations.PortsMoveOnlyByInAndOut := by
  intro s t h
  obtain rfl | ⟨e, rfl⟩ | ⟨w, i, hw, hd, he⟩ := step_changes h
  · exact ⟨.inl rfl, .inl rfl, .inl rfl, .inl rfl⟩
  · exact ⟨.inl rfl, .inl rfl, .inl rfl, .inl rfl⟩
  · refine ⟨?_, ?_, ?_, ?_⟩
    · exact he.source.imp_right fun ⟨m, hi, _⟩ => ⟨w, m, hw, hi ▸ hd⟩
    · exact he.sink.imp_right fun ⟨m, hi, _⟩ => ⟨w, m, hw, hi ▸ hd⟩
    · obtain hq | ⟨_, _, hq | ⟨hq, hv⟩⟩ := he.source
      · exact .inl (by rw [hq])
      · exact .inl (by rw [hq, Source.waited_consumed])
      · exact .inr ⟨by rw [hq, Source.delivered_consumed], hv⟩
    · obtain hk | ⟨m, rfl, hk | ⟨a, ha, hacc, hk⟩⟩ := he.sink
      · exact .inl (by rw [hk])
      · exact .inl (by rw [hk, Sink.waited_accepted])
      · exact .inr ⟨hacc, w, m, a, hw, hd, ha, by rw [hk, Sink.took_accepted]⟩

/-- Settles O8: of the effects only HLT's and an exception write `state`; with the invariant no error flag
is set while Running. -/
theorem onlyHaltOrExceptionLeavesRunning : Obligations.OnlyHaltOrExceptionLeavesRunning := by
  intro s t hs hrun h hhalt
  have herr : s.err = false := by
    by_contra hne
    simp [hs.errHalted (by simpa using hne)] at hrun
  have hraise (e : Trap) :
      (s.raise e).EndedInError ∧ ∃ c x, c ≠ Cause.none ∧ s.raise e = s.errorHalt c x :=
    ⟨⟨rfl, rfl⟩, _, _, e.cause_ne_none, s.raise_eq_errorHalt e⟩
  obtain rfl | ⟨e, rfl⟩ | ⟨w, i, hw, hd, he⟩ := step_changes h
  · simp [hhalt] at hrun
  · exact .inr (hraise e)
  · obtain ⟨hr, _⟩ | ⟨rfl, rfl⟩ | ⟨e, rfl⟩ := he.status
    · simp [← hr, hhalt] at hrun
    · refine .inl ⟨⟨rfl, herr⟩, ?_, w, hw, hd⟩
      simp [State.advance, State.halt, State.setPc]
    · exact .inr (hraise e)

/-- The meaning of the word at `pc` is the Step of a running machine (40_cycle_and_operands.md R80). -/
theorem step_eq_exec {s : State} {w : Word} {i : Instr} (hrun : s.run = .running)
    (hw : s.Holds s.pc.toInt w) (hd : decode w = .ok i) : step s = exec i s := by
  simp [step, cycle, hrun, State.fetchDecode, State.holds_iff.mpr hw, hd, bind, Except.bind]

/-- No instruction has more than three operands (30_encoding.md R64). -/
theorem modes_length_le (i : Instr) : i.modes.length ≤ 3 := by cases i <;> simp [Instr.modes]

/-- Past an instruction that was fetched, `pc` does not wrap (10_state.md R23, 00_scope.md R6). -/
theorem State.Inv.wrap_pc_advance {s : State} {w : Word} {c : Nat} (hs : s.Inv) (hw : s.Holds s.pc.toInt w)
    (hc : c ≤ 3) : (wrap (s.pc.toInt + 1 + c)).toInt = s.pc.toInt + 1 + c := by
  obtain ⟨h0, hN, _⟩ := hw
  have hcap : s.mem.capacity ≤ 2 ^ 63 - 4 := hs.capacityBound
  exact BitVec.toInt_ofInt_eq_self (by decide) (by omega) (by omega)

/-- Settles O13: by where an effect leaves `pc`, and the bound on the capacity. -/
theorem completingStepAdvancesByItsWidth : Obligations.CompletingStepAdvancesByItsWidth := by
  intro s t w i hs hrun hw hd h herr
  obtain hpc | hjump | hstall | ⟨e, rfl⟩ := (exec_cases ((step_eq_exec hrun hw hd).symm.trans h)).pc
  · exact .inl (by rw [hpc, hs.wrap_pc_advance hw (modes_length_le i)])
  · exact .inr (.inl hjump)
  · exact .inr (.inr hstall)
  · simp at herr

end Sys2Proof.Machine
end

section
/-! PROOFS. The instructions other than IN and OUT against the ports (10_state.md R30): replacing both ports
before such an instruction is replacing them after it. -/

namespace Sys2Proof.Machine

/-- s with other ports. -/
def State.withPorts (s : State) (q : Source) (k : Sink) : State := { s with source := q, sink := k }

/-- An ending with other ports in the state it holds. -/
def Ending.withPorts (q : Source) (k : Sink) : Ending → Ending
  | .completed t => .completed (t.withPorts q k)
  | .stalled t => .stalled (t.withPorts q k)
  | .raised e => .raised e

theorem conclude_withPorts {s t : State} {r r' : Except Trap Ending} {q : Source} {k : Sink}
    (hr : r' = Ending.withPorts q k <$> r) (h : conclude s r = .next t) :
    conclude (s.withPorts q k) r' = .next (t.withPorts q k) := by
  subst hr
  obtain e | ⟨u | u | e⟩ := r <;> (obtain rfl := Host.Outcome.next.inj h; rfl)

theorem State.sourceValue_withPorts (s : State) (q : Source) (k : Sink) (i : Nat) (m : Mode) :
    (s.withPorts q k).sourceValue i m = s.sourceValue i m := rfl

theorem State.targetLocation_withPorts (s : State) (q : Source) (k : Sink) (i : Nat) (m : Mode) :
    (s.withPorts q k).targetLocation i m = s.targetLocation i m := rfl

theorem computeStore_withPorts (r : Word → Word → Word) (m1 m2 m3 : Mode) (s : State) (q : Source) (k : Sink) :
    computeStore r m1 m2 m3 (s.withPorts q k) = Ending.withPorts q k <$> computeStore r m1 m2 m3 s := by
  simp only [computeStore, State.sourceValue_withPorts, State.targetLocation_withPorts, map_bind]
  rfl

theorem conditionalJump_withPorts (f : Word → Bool) (m1 m2 : Mode) (s : State) (q : Source) (k : Sink) :
    conditionalJump f m1 m2 (s.withPorts q k) = Ending.withPorts q k <$> conditionalJump f m1 m2 s := by
  simp only [conditionalJump, State.sourceValue_withPorts, map_bind]
  refine bind_congr fun a => bind_congr fun b => ?_
  cases f a <;> rfl

/-- By the shared forms: compute and store, conditional jump; then ARB, HLT and ILLEGAL. -/
theorem exec_withPorts {i : Instr} {s t : State} (q : Source) (k : Sink) (hin : ∀ m, i ≠ .inp m)
    (hout : ∀ m, i ≠ .out m) (h : exec i s = .next t) :
    exec i (s.withPorts q k) = .next (t.withPorts q k) := by
  cases i with
  | add | mul | lt | eq => exact conclude_withPorts (computeStore_withPorts _ _ _ _ s q k) h
  | jt | jf => exact conclude_withPorts (conditionalJump_withPorts _ _ _ s q k) h
  | inp m => exact absurd rfl (hin m)
  | out m => exact absurd rfl (hout m)
  | arb m =>
    obtain ⟨a, ha, _⟩ | ⟨x, hx, _⟩ := s.sourceValue_cases 1 m
    · obtain rfl := Host.Outcome.next.inj ((execArb_of_source ha).symm.trans h)
      exact execArb_of_source (s := s.withPorts q k) ha
    · obtain rfl := Host.Outcome.next.inj ((execArb_of_fault hx).symm.trans h)
      exact execArb_of_fault (s := s.withPorts q k) hx
  | hlt => exact conclude_withPorts (s := s) (r := .ok (.completed (s.halt.advance 0))) rfl h
  | illegal w => exact conclude_withPorts (s := s) (r := .ok (.raised (.illegalOpcode w))) rfl h

/-- Settles O15: the effect moves neither port, and replacing the ports commutes with the instruction. -/
theorem otherInstructionsIgnoreThePorts : Obligations.OtherInstructionsIgnoreThePorts := by
  intro i s t q k hin hout h
  have he := exec_cases h
  refine ⟨?_, ?_, exec_withPorts q k hin hout h⟩
  · obtain hs | ⟨m, hi, _⟩ := he.source
    · exact hs
    · exact absurd hi (hin m)
  · obtain hk | ⟨m, hi, _⟩ := he.sink
    · exact hk
    · exact absurd hi (hout m)

end Sys2Proof.Machine
end

section
/-! PROOFS. The state after reset, and the status bits the host reads. -/

namespace Sys2Proof.Machine

theorem imageCells_cons_zero (a : Nat) (rest : List Word) :
    imageCells a (0 :: rest) = imageCells (a + 1) rest := if_pos rfl

/-- The image of a program laid out from index a on reads as the program, and 0 past its end. -/
theorem lookup_imageCells (a i : Nat) (ws : List Word) :
    lookup (a + i) (imageCells a ws) = ws.getD i 0 := by
  induction ws generalizing a i with
  | nil => rfl
  | cons w rest ih =>
    have htail (j : Nat) : lookup (a + (j + 1)) (imageCells (a + 1) rest) = rest.getD j 0 := by
      rw [← ih (a + 1) j]
      congr 1
      omega
    by_cases hw : w = 0
    · rw [hw, imageCells_cons_zero]
      cases i with
      | zero => exact lookup_below (cellsWf_imageCells (le_refl _)) (Nat.lt_succ_self a)
      | succ j => exact htail j
    · rw [imageCells_cons_nonzero a hw]
      cases i with
      | zero => simp [lookup]
      | succ j => simpa [lookup] using htail j

/-- Settles O1: by the image of the program in the new memory. -/
theorem resetLeavesTheSpecifiedState : Obligations.ResetLeavesTheSpecifiedState := by
  intro n program source sink hlen hn
  have hword (i : Nat) : lookup i (imageCells 0 program) = program.getD i 0 := by
    simpa using lookup_imageCells 0 i program
  refine ⟨_, construct_eq_some_iff.mpr ⟨⟨hlen, hn⟩, rfl⟩, rfl, rfl, rfl, rfl, rfl, rfl, rfl, ?_, ?_, rfl, rfl⟩
  · intro i hi
    exact (hword i).trans (List.getD_eq_getElem _ _ hi)
  · intro i hi
    exact (hword i).trans (List.getD_eq_default _ _ hi)

/-! ### The status bits -/

/-- Different causes have different codes (60_exceptions.md R150). -/
theorem Cause.code_inj {c d : Cause} : c.code = d.code ↔ c = d := by
  cases c <;> cases d <;> decide

/-- The codes 6 and 7 never occur (10_state.md R27). -/
theorem Cause.code_le (c : Cause) : c.code.toNat ≤ 5 := by
  cases c <;> decide

theorem errCode_eq_zero_iff {b : Bool} : errCode b = 0 ↔ b = false := by
  cases b <;> decide

theorem errCode_eq_one_iff {b : Bool} : errCode b = 1 ↔ b = true := by
  cases b <;> decide

/-- A cause is recorded exactly when the error flag is set (10_state.md R27). -/
theorem State.RecordFits.cause_eq_none_iff {s : State} (h : s.RecordFits) : s.cause = .none ↔ s.err = false := by
  unfold State.RecordFits at h
  cases hc : s.cause <;> (rw [hc] at h; simp [h.1])

/-- No information is recorded with no exception, nor with a failed port (60_exceptions.md R150). -/
theorem State.RecordFits.finfo_eq_zero {s : State} (h : s.RecordFits)
    (hc : s.cause = .none ∨ s.cause = .inputFailure ∨ s.cause = .outputFailure) : s.finfo = 0 := by
  unfold State.RecordFits at h
  obtain hc | hc | hc := hc <;> (rw [hc] at h; exact h.2)

/-- Settles O43: through the codes, by what the fault record says for each cause. -/
theorem statusBitsAreConsistent : Obligations.StatusBitsAreConsistent := by
  intro s hs
  have hrec := hs.record
  refine ⟨?_, s.cause.code_le, fun herr => ?_, fun hc => ?_, fun hc => ?_⟩
  · calc s.cause.code = Cause.none.code ↔ s.cause = .none := Cause.code_inj
      _ ↔ s.err = false := hrec.cause_eq_none_iff
      _ ↔ errCode s.err = 0 := errCode_eq_zero_iff.symm
  · exact congrArg RunState.code (hs.errHalted (errCode_eq_one_iff.mp herr))
  · exact hrec.finfo_eq_zero (.inl (Cause.code_inj.mp hc))
  · exact hrec.finfo_eq_zero (.inr (hc.imp (Cause.code_inj (d := .inputFailure)).mp
      (Cause.code_inj (d := .outputFailure)).mp))

end Sys2Proof.Machine
end

section
/-! PROOFS. Memory as its words (20_memory.md R41, R46, R52, R55): a canonical list of cells is determined by
what it reads, `finfo` holds every address a Step can compute, and a stored word is what the next fetch
finds. -/

namespace Sys2Proof.Machine

/-! ### A canonical list is what it reads -/

theorem lookup_cons_same (a : Nat) (v : Word) (rest : List WordCell) : lookup a ((a, v) :: rest) = v := if_pos rfl

theorem lookup_cons_other {a b : Nat} (h : a ≠ b) (v : Word) (rest : List WordCell) :
    lookup a ((b, v) :: rest) = lookup a rest := if_neg h

/-- The first cell of a canonical list does not read 0. -/
theorem lookup_head_ne_zero {n lo b : Nat} {v : Word} {rest : List WordCell}
    (h : cellsWf n lo ((b, v) :: rest) = true) : lookup b ((b, v) :: rest) ≠ 0 := by
  obtain ⟨_, _, hv, _⟩ := cellsWf_cons.mp h
  rwa [lookup_cons_same]

/-- An index that does not read 0 is not below the first cell of a canonical list. -/
theorem head_le_of_lookup_ne_zero {n lo a b : Nat} {v : Word} {rest : List WordCell}
    (h : cellsWf n lo ((b, v) :: rest) = true) (ha : lookup a ((b, v) :: rest) ≠ 0) : b ≤ a := by
  obtain ⟨_, hrest⟩ := cellsWf_cons.mp h
  by_contra hlt
  exact ha (lookup_below (cellsWf_cons.mpr ⟨le_refl b, hrest⟩) (by omega))

/-- Canonical lists with the same first cell that read the same have tails that read the same: up to that
cell both tails read 0, and after it they are the lists. -/
theorem lookup_tail_eq {n lo lo' a : Nat} {v : Word} {rest rest' : List WordCell}
    (h : cellsWf n lo ((a, v) :: rest) = true) (h' : cellsWf n lo' ((a, v) :: rest') = true)
    (heq : ∀ x, lookup x ((a, v) :: rest) = lookup x ((a, v) :: rest')) (x : Nat) :
    lookup x rest = lookup x rest' := by
  obtain ⟨_, _, _, hrest⟩ := cellsWf_cons.mp h
  obtain ⟨_, _, _, hrest'⟩ := cellsWf_cons.mp h'
  by_cases hx : x < a + 1
  · rw [lookup_below hrest hx, lookup_below hrest' hx]
  · have hne : x ≠ a := by omega
    simpa only [lookup_cons_other hne] using heq x

/-- By induction on the first list: each first cell is not below the other one, so they are the same cell. -/
theorem cells_eq_of_lookup_eq {n lo lo' : Nat} {cells cells' : List WordCell} (h : cellsWf n lo cells = true)
    (h' : cellsWf n lo' cells' = true) (heq : ∀ a, lookup a cells = lookup a cells') : cells = cells' := by
  induction cells generalizing lo lo' cells' with
  | nil =>
    cases cells' with
    | nil => rfl
    | cons d rest' => exact absurd (heq d.1).symm (lookup_head_ne_zero h')
  | cons c rest ih =>
    cases cells' with
    | nil => exact absurd (heq c.1) (lookup_head_ne_zero h)
    | cons d rest' =>
      obtain ⟨a, v⟩ := c
      obtain ⟨b, w⟩ := d
      have hba : b ≤ a := head_le_of_lookup_ne_zero h' (heq a ▸ lookup_head_ne_zero h)
      have hab : a ≤ b := head_le_of_lookup_ne_zero h ((heq b).symm ▸ lookup_head_ne_zero h')
      obtain rfl : a = b := le_antisymm hab hba
      obtain rfl : v = w := by simpa only [lookup_cons_same] using heq a
      obtain ⟨_, _, _, hrest⟩ := cellsWf_cons.mp h
      obtain ⟨_, _, _, hrest'⟩ := cellsWf_cons.mp h'
      rw [ih hrest hrest' (lookup_tail_eq h h' heq)]

/-- Settles O16: the capacities are equal, and so are two canonical lists that read the same. -/
theorem canonicalMemoryIsItsWords : Obligations.CanonicalMemoryIsItsWords := by
  rintro ⟨n, cells⟩ ⟨n', cells'⟩ hwf hwf' hcap hword
  obtain rfl : n = n' := hcap
  obtain rfl : cells = cells' := cells_eq_of_lookup_eq hwf hwf' hword
  rfl

/-! ### The information of an exception -/

/-- The record of an exception holds every integer of W + 1 bits exactly. -/
theorem State.errorHalt_finfo_toInt (s : State) (c : Cause) {x : Int} (lo : -(2 ^ 64) ≤ x) (hi : x < 2 ^ 64) :
    (s.errorHalt c x).finfo.toInt = x := infoOf_toInt lo hi

/-- Settles O21: a Word plus an operand offset, a Word, and the sum of two Words fit W + 1 bits. -/
theorem faultInformationIsExact : Obligations.FaultInformationIsExact := by
  intro s c r i hi
  have hpc := s.pc.le_toInt; have hpc' := s.pc.toInt_lt
  have hrbo := s.rbo.le_toInt; have hrbo' := s.rbo.toInt_lt
  have hr := r.le_toInt; have hr' := r.toInt_lt
  exact ⟨s.errorHalt_finfo_toInt c (by omega) (by omega), s.errorHalt_finfo_toInt c (by omega) (by omega),
    s.errorHalt_finfo_toInt c (by omega) (by omega)⟩

/-! ### A store and the next fetch -/

/-- An address inside a memory within the capacity bound is a Word (00_scope.md R6). -/
theorem wrap_toInt_of_inMemory {m : Memory} {x : Int} (hcap : m.capacity ≤ 2 ^ 63 - 4) (h0 : 0 ≤ x)
    (hN : x < m.capacity) : (wrap x).toInt = x :=
  BitVec.toInt_ofInt_eq_self (by decide) (by omega) (by omega)

/-- The word stored at an address in memory is what a read of that address finds. -/
theorem State.holds_setMem_setWord (s : State) {x : Int} (v : Word) (h0 : 0 ≤ x) (hN : x < s.mem.capacity) :
    (s.setMem (s.mem.setWord x.toNat v)).Holds x v :=
  ⟨h0, hN, (s.mem.word_setWord x.toNat x.toNat v).trans (if_pos rfl)⟩

/-- The Step of an ADD whose operands resolve stores the sum and advances by 4 (41_arithmetic.md R100). -/
theorem step_add_completes {s : State} {w a b : Word} {m1 m2 m3 : Mode} {loc : Int} (hrun : s.run = .running)
    (hw : s.Holds s.pc.toInt w) (hd : decode w = .ok (.add m1 m2 m3)) (h1 : s.SourceIs 1 m1 a)
    (h2 : s.SourceIs 2 m2 b) (h3 : s.TargetIs 3 m3 loc) :
    step s = .next ((s.setMem (s.mem.setWord loc.toNat (addWords a b))).advance 3) :=
  calc step s = exec (.add m1 m2 m3) s := step_eq_exec hrun hw hd
    _ = conclude s (computeStore addWords m1 m2 m3 s) := rfl
    _ = .next ((s.setMem (s.mem.setWord loc.toNat (addWords a b))).advance 3) := by
      rw [computeStore_completes h1 h2 h3, conclude_completed]

/-- Settles O38: the location of the sum is the advanced `pc`, which does not wrap, so the next fetch reads
the sum. -/
theorem storeIsSeenByTheNextFetch : Obligations.StoreIsSeenByTheNextFetch := by
  intro s w a b m1 m2 m3 j hrun hcap hw hd h1 h2 h3 hj
  have ⟨h0, hN, _⟩ := h3
  have hpc : (wrap (s.pc.toInt + 1 + (3 : Nat))).toInt = s.pc.toInt + 4 := by
    rw [show s.pc.toInt + 1 + (3 : Nat) = s.pc.toInt + 4 by omega]
    exact wrap_toInt_of_inMemory hcap h0 hN
  refine ⟨_, step_add_completes hrun hw hd h1 h2 h3, hpc, step_eq_exec hrun ?_ hj⟩
  rw [State.advance_pc, State.setMem_pc, hpc]
  exact s.holds_setMem_setWord (addWords a b) h0 hN

end Sys2Proof.Machine
end

section
/-! PROOFS. The decoder and the encoder in decimal (30_encoding.md R61 to R70, R77): a word of a listed
opcode is read by its mode digits, and the words of an instruction are those with its opcode and the digits
of its modes. -/

namespace Sys2Proof

/-! ### The mode digits of a word -/

/-- The digits at the places of c operands, operand 1 first (30_encoding.md R61). -/
def modeDigits (v c : Nat) : List Nat := (List.range c).map fun k => digit v (k + 2)

@[simp] theorem modeDigits_length (v c : Nat) : (modeDigits v c).length = c := by simp [modeDigits]

theorem mem_modeDigits {v c d : Nat} : d ∈ modeDigits v c ↔ ∃ k, k < c ∧ digit v (k + 2) = d := by
  simp [modeDigits]

theorem lt_ten_of_mem_modeDigits {v c d : Nat} (h : d ∈ modeDigits v c) : d < 10 := by
  obtain ⟨k, _, rfl⟩ := mem_modeDigits.mp h
  exact Nat.mod_lt _ (by decide)

/-- One more operand is one more digit, the next one up. -/
theorem modeDigits_succ (v c : Nat) : modeDigits v (c + 1) = modeDigits v c ++ [digit v (c + 2)] := by
  simp [modeDigits, List.range_succ]

/-- The number below position c + 2 is the opcode field and the c mode digits over it. -/
theorem mod_pow_eq_modeDigits (v c : Nat) :
    v % 10 ^ (c + 2) = v % 100 + 100 * Nat.ofDigits 10 (modeDigits v c) := by
  induction c with
  | zero => simp [modeDigits]
  | succ c ih =>
    calc v % 10 ^ (c + 2 + 1) = v % 10 ^ (c + 2) + 10 ^ (c + 2) * digit v (c + 2) := Nat.mod_pow_succ
      _ = v % 100 + 100 * Nat.ofDigits 10 (modeDigits v (c + 1)) := by
        rw [ih, modeDigits_succ, Nat.ofDigits_append, Nat.ofDigits_singleton, modeDigits_length]
        ring

theorem mode_digit_injective : Function.Injective Mode.digit := fun _ _ h =>
  Option.some.inj ((Mode.ofDigit_eq_some.mpr rfl).symm.trans (Mode.ofDigit_eq_some.mpr h))

theorem digit_le_of_mem_modes {ms : List Mode} {d : Nat} (h : d ∈ ms.map Mode.digit) : d ≤ 2 := by
  obtain ⟨m, _, rfl⟩ := List.mem_map.mp h
  exact m.digit_le

/-! ### The rows of the opcode table -/

/-- The opcode of a row is listed, and fixes the number of operands (30_encoding.md R63, R64). -/
theorem listed_of_opcode {i : Instr} {op : Nat} (h : i.opcode = some op) :
    op ∈ listedOpcodes ∧ operandCountOf op = i.modes.length := by
  cases i <;> cases h <;> exact ⟨by decide, rfl⟩

theorem lt_hundred_of_listed {op : Nat} (h : op ∈ listedOpcodes) : op < 100 :=
  (by decide : ∀ n ∈ listedOpcodes, n < 100) op h

/-- The opcode table read by opcode and modes: the row they name, if any. -/
def rowOf : Option Nat → List Mode → Option Instr
  | some 1, [m1, m2, m3] => some (.add m1 m2 m3)
  | some 2, [m1, m2, m3] => some (.mul m1 m2 m3)
  | some 3, [m1] => some (.inp m1)
  | some 4, [m1] => some (.out m1)
  | some 5, [m1, m2] => some (.jt m1 m2)
  | some 6, [m1, m2] => some (.jf m1 m2)
  | some 7, [m1, m2, m3] => some (.lt m1 m2 m3)
  | some 8, [m1, m2, m3] => some (.eq m1 m2 m3)
  | some 9, [m1] => some (.arb m1)
  | some 99, [] => some .hlt
  | _, _ => none

theorem rowOf_opcode_modes {i : Instr} (h : i.opcode ≠ none) : rowOf i.opcode i.modes = some i := by
  cases i with
  | illegal w => exact absurd rfl h
  | _ => rfl

/-- Only ILLEGAL has no opcode (30_encoding.md R63). -/
theorem eq_illegal_of_opcode {i : Instr} (h : i.opcode = none) : ∃ w, i = .illegal w := by
  cases i <;> cases h
  exact ⟨_, rfl⟩

/-- A legal instruction is its opcode and its modes (30_encoding.md R62). -/
theorem eq_of_opcode_of_modes {i j : Instr} (h : i.opcode ≠ none) (hop : j.opcode = i.opcode)
    (hm : j.modes = i.modes) : j = i := by
  have hj := rowOf_opcode_modes (hop ▸ h : j.opcode ≠ none)
  rw [hop, hm, rowOf_opcode_modes h] at hj
  exact (Option.some.inj hj).symm

/-! ### What the encoder writes -/

/-- The encoding is the decimal number of its opcode and mode digits (30_encoding.md R61). -/
theorem encode_toNat {i : Instr} {op : Nat} (h : i.opcode = some op) :
    (encode i).toNat = op + 100 * Nat.ofDigits 10 (i.modes.map Mode.digit) := by
  cases i <;> cases h
  case add m1 m2 m3 | mul m1 m2 m3 | lt m1 m2 m3 | eq m1 m2 m3 =>
    rw [encode, composite_toNat (by decide) _ _ _ m1.digit_le m2.digit_le m3.digit_le]
    simp [Instr.modes, Nat.ofDigits_cons]
    ring
  case inp m1 | out m1 | arb m1 =>
    rw [encode, composite_toNat (by decide) _ _ _ m1.digit_le (Nat.zero_le 2) (Nat.zero_le 2)]
    simp [Instr.modes]
  case jt m1 m2 | jf m1 m2 =>
    rw [encode, composite_toNat (by decide) _ _ _ m1.digit_le m2.digit_le (Nat.zero_le 2)]
    simp [Instr.modes, Nat.ofDigits_cons]
    ring
  case hlt => rfl

/-- The encoding has no digit above those of its operands (30_encoding.md R74). -/
theorem encode_toNat_lt {i : Instr} {op : Nat} (h : i.opcode = some op) :
    (encode i).toNat < 10 ^ (i.modes.length + 2) := by
  have hop := lt_hundred_of_listed (listed_of_opcode h).1
  have hd : Nat.ofDigits 10 (i.modes.map Mode.digit) < 10 ^ (i.modes.map Mode.digit).length :=
    Nat.ofDigits_lt_base_pow_length (by decide) fun d hd => by
      have := digit_le_of_mem_modes hd
      omega
  rw [List.length_map] at hd
  rw [encode_toNat h, Nat.pow_add]
  omega

theorem encode_nonneg {i : Instr} {op : Nat} (h : i.opcode = some op) : 0 ≤ (encode i).toInt := by
  have hlen := Machine.modes_length_le i
  have hlt : (encode i).toNat < 10 ^ 5 :=
    (encode_toNat_lt h).trans_le (Nat.pow_le_pow_right (by decide) (by omega))
  rw [BitVec.toInt_eq_toNat_of_lt (by omega)]
  exact Int.natCast_nonneg _

/-- A number agrees with an encoding below position c + 2 exactly when it has its opcode and its mode
digits: numerals of one length with digits below 10 are equal digit by digit. -/
theorem mod_pow_eq_encode_iff {i : Instr} {op : Nat} (h : i.opcode = some op) (v : Nat) :
    v % 10 ^ (i.modes.length + 2) = (encode i).toNat ↔
      v % 100 = op ∧ i.modes.map Mode.digit = modeDigits v i.modes.length := by
  have hop := lt_hundred_of_listed (listed_of_opcode h).1
  rw [mod_pow_eq_modeDigits, encode_toNat h]
  constructor
  · intro heq
    have hnum : Nat.ofDigits 10 (i.modes.map Mode.digit) = Nat.ofDigits 10 (modeDigits v i.modes.length) := by
      omega
    refine ⟨by omega, Nat.ofDigits_inj_of_len_eq (by decide) (by simp) ?_ ?_ hnum⟩
    · intro d hd
      have := digit_le_of_mem_modes hd
      omega
    · exact fun d hd => lt_ten_of_mem_modeDigits hd
  · rintro ⟨rfl, hd⟩
    rw [hd]

/-! ### What the decoder reads -/

/-- The decoder's answer for a word of opcode op with c operands: a legal instruction whose modes are the
mode digits (30_encoding.md R62), or illegal mode with a mode digit above 2 (R69). -/
def ReadsModes (w : Word) (op c : Nat) (r : Except DecodeReject Instr) : Prop :=
  (∃ i, r = .ok i ∧ i.opcode = some op ∧ i.modes.map Mode.digit = modeDigits w.toNat c) ∨
    (r = .error (.illegalMode w) ∧ ∃ d ∈ modeDigits w.toNat c, 3 ≤ d)

/-- The mode of operand k + 1 is the one its digit stands for, or its digit is above 2. -/
theorem operandMode_cases (v : Nat) {c k : Nat} (hk : k < c) :
    (∃ m, operandMode v (k + 1) = some m ∧ m.digit = digit v (k + 2)) ∨
      (operandMode v (k + 1) = none ∧ ∃ d ∈ modeDigits v c, 3 ≤ d) := by
  rw [operandMode_eq v (k + 1) (Nat.le_add_left 1 k)]
  cases h : Mode.ofDigit (digit v (k + 2)) with
  | some m => exact .inl ⟨m, rfl, (Mode.ofDigit_eq_some.mp h).symm⟩
  | none => exact .inr ⟨rfl, _, mem_modeDigits.mpr ⟨k, hk, rfl⟩, Mode.ofDigit_eq_none.mp h⟩

section
variable (w : Word) {op : Nat}

theorem decode1_reads {k : Mode → Instr} (hk : ∀ m1, (k m1).opcode = some op ∧ (k m1).modes = [m1]) :
    ReadsModes w op 1 (decode1 w k) := by
  obtain ⟨m1, h1, hd1⟩ | ⟨h1, hbad⟩ := operandMode_cases w.toNat (show 0 < 1 by decide)
  · obtain ⟨hop, hm⟩ := hk m1
    exact .inl ⟨k m1, by simp [decode1, h1], hop, by simp [hm, hd1, modeDigits]⟩
  · exact .inr ⟨by simp [decode1, h1], hbad⟩

theorem decode2_reads {k : Mode → Mode → Instr}
    (hk : ∀ m1 m2, (k m1 m2).opcode = some op ∧ (k m1 m2).modes = [m1, m2]) :
    ReadsModes w op 2 (decode2 w k) := by
  obtain ⟨m1, h1, hd1⟩ | ⟨h1, hbad⟩ := operandMode_cases w.toNat (show 0 < 2 by decide)
  · obtain ⟨m2, h2, hd2⟩ | ⟨h2, hbad⟩ := operandMode_cases w.toNat (show 1 < 2 by decide)
    · obtain ⟨hop, hm⟩ := hk m1 m2
      exact .inl ⟨k m1 m2, by simp [decode2, h1, h2], hop, by simp [hm, hd1, hd2, modeDigits, List.range_succ]⟩
    · exact .inr ⟨by simp [decode2, h2], hbad⟩
  · exact .inr ⟨by simp [decode2, h1], hbad⟩

theorem decode3_reads {k : Mode → Mode → Mode → Instr}
    (hk : ∀ m1 m2 m3, (k m1 m2 m3).opcode = some op ∧ (k m1 m2 m3).modes = [m1, m2, m3]) :
    ReadsModes w op 3 (decode3 w k) := by
  obtain ⟨m1, h1, hd1⟩ | ⟨h1, hbad⟩ := operandMode_cases w.toNat (show 0 < 3 by decide)
  · obtain ⟨m2, h2, hd2⟩ | ⟨h2, hbad⟩ := operandMode_cases w.toNat (show 1 < 3 by decide)
    · obtain ⟨m3, h3, hd3⟩ | ⟨h3, hbad⟩ := operandMode_cases w.toNat (show 2 < 3 by decide)
      · obtain ⟨hop, hm⟩ := hk m1 m2 m3
        exact .inl ⟨k m1 m2 m3, by simp [decode3, h1, h2, h3], hop,
          by simp [hm, hd1, hd2, hd3, modeDigits, List.range_succ]⟩
      · exact .inr ⟨by simp [decode3, h3], hbad⟩
    · exact .inr ⟨by simp [decode3, h2], hbad⟩
  · exact .inr ⟨by simp [decode3, h1], hbad⟩

/-- By the rows of the opcode table, together where they have equally many operands. -/
theorem decodeOpcode_reads (h : op ∈ listedOpcodes) :
    ReadsModes w op (operandCountOf op) (decodeOpcode w op) := by
  unfold decodeOpcode
  split
  case h_1 | h_2 | h_7 | h_8 => exact decode3_reads w fun _ _ _ => ⟨rfl, rfl⟩
  case h_3 | h_4 | h_9 => exact decode1_reads w fun _ => ⟨rfl, rfl⟩
  case h_5 | h_6 => exact decode2_reads w fun _ _ => ⟨rfl, rfl⟩
  case h_10 => exact .inl ⟨.hlt, rfl, rfl, rfl⟩
  case h_11 => simp_all [listedOpcodes]

theorem decodeOpcode_unlisted (h : op ∉ listedOpcodes) : decodeOpcode w op = .ok (.illegal w) := by
  unfold decodeOpcode
  split
  case h_11 => rfl
  all_goals exact absurd (by decide) h

end

section
variable {w : Word}

/-- A negative word is ILLEGAL (30_encoding.md R67). -/
theorem decode_of_neg (h : w.toInt < 0) : decode w = .ok (.illegal w) := if_pos h

/-- Only the digits of a non-negative word matter. -/
theorem decode_of_nonneg (h : 0 ≤ w.toInt) : decode w = decodeOpcode w (w.toNat % 100) := if_neg h.not_gt

/-- A word whose low two digits are no opcode is ILLEGAL (30_encoding.md R68). -/
theorem decode_of_unlisted (h : w.toNat % 100 ∉ listedOpcodes) : decode w = .ok (.illegal w) := by
  unfold decode
  split
  · rfl
  · exact decodeOpcode_unlisted w h

/-- The two ways in which a word selects no instruction (30_encoding.md R67, R68). -/
theorem unrecognized_iff : unrecognized w = true ↔ w.toInt < 0 ∨ w.toNat % 100 ∉ listedOpcodes := by
  simp [unrecognized]

/-- A word that selects no instruction is ILLEGAL (30_encoding.md R67, R68). -/
theorem decode_of_unrecognized (h : unrecognized w = true) : decode w = .ok (.illegal w) :=
  (unrecognized_iff.mp h).elim decode_of_neg decode_of_unlisted

/-- A non-negative word of a listed opcode is read by its mode digits (30_encoding.md R62, R69). -/
theorem decode_reads (h0 : 0 ≤ w.toInt) (h : w.toNat % 100 ∈ listedOpcodes) :
    ReadsModes w (w.toNat % 100) (operandCountOf (w.toNat % 100)) (decode w) := by
  rw [decode_of_nonneg h0]
  exact decodeOpcode_reads w h

/-- Only a non-negative word of a listed opcode decodes to a legal instruction (30_encoding.md R77). -/
theorem nonneg_and_listed_of_decode {i : Instr} (h : decode w = .ok i) (hi : i.opcode ≠ none) :
    0 ≤ w.toInt ∧ w.toNat % 100 ∈ listedOpcodes := by
  have hne : decode w ≠ .ok (.illegal w) := by
    rintro hw
    obtain rfl : i = .illegal w := by simpa [h] using hw
    exact hi rfl
  exact ⟨not_lt.mp fun hneg => hne (decode_of_neg hneg), by_contra fun hun => hne (decode_of_unlisted hun)⟩

/-- The words that decode to a legal instruction are the non-negative ones with its opcode and the digits of
its modes. -/
theorem decode_eq_ok_iff {i : Instr} {op : Nat} (hi : i.opcode = some op) :
    decode w = .ok i ↔ 0 ≤ w.toInt ∧ w.toNat % 100 = op ∧
      i.modes.map Mode.digit = modeDigits w.toNat i.modes.length := by
  have hne : i.opcode ≠ none := by simp [hi]
  obtain ⟨hlisted, hcount⟩ := listed_of_opcode hi
  constructor
  · intro h
    obtain ⟨h0, hl⟩ := nonneg_and_listed_of_decode h hne
    obtain ⟨j, hj, hop, hm⟩ | ⟨he, _⟩ := decode_reads h0 hl
    · obtain rfl : i = j := by simpa [h] using hj
      obtain rfl : op = w.toNat % 100 := by simpa [hi] using hop
      exact ⟨h0, rfl, hcount ▸ hm⟩
    · simp [h] at he
  · rintro ⟨h0, rfl, hm⟩
    obtain ⟨j, hj, hop, hm'⟩ | ⟨_, d, hd, hd3⟩ := decode_reads h0 hlisted
    · rw [hcount, ← hm] at hm'
      rw [hj, eq_of_opcode_of_modes hne (hop.trans hi.symm) (mode_digit_injective.list_map hm')]
    · rw [hcount, ← hm] at hd
      have := digit_le_of_mem_modes hd
      omega

/-- A used mode digit above 2 makes the word an illegal mode (30_encoding.md R69). -/
theorem decode_of_mode_digit_above_two {k : Nat} (h0 : 0 ≤ w.toInt) (h : w.toNat % 100 ∈ listedOpcodes)
    (hk : k < operandCountOf (w.toNat % 100)) (hd : 3 ≤ digit w.toNat (k + 2)) :
    decode w = .error (.illegalMode w) := by
  obtain ⟨i, _, _, hm⟩ | ⟨he, _⟩ := decode_reads h0 h
  · have hmem : digit w.toNat (k + 2) ∈ i.modes.map Mode.digit := hm ▸ mem_modeDigits.mpr ⟨k, hk, rfl⟩
    have := digit_le_of_mem_modes hmem
    omega
  · exact he

end

/-! ### The claims about words -/

/-- Settles O23: both sides say the opcode and the mode digits of the word. -/
theorem higherDigitsAreIgnored : Obligations.HigherDigitsAreIgnored := by
  intro w i hi
  obtain ⟨op, hop⟩ := Option.ne_none_iff_exists'.mp hi
  rw [decode_eq_ok_iff hop, mod_pow_eq_encode_iff hop]

/-- Settles O22: the encoding of a legal instruction has no digits but those its decoding reads; the word of
a well-formed ILLEGAL is negative or of no listed opcode. -/
theorem decodeOfEncodeIsTheInstruction : Obligations.DecodeOfEncodeIsTheInstruction := by
  intro i hwf
  cases h : i.opcode with
  | none =>
    obtain ⟨w, rfl⟩ := eq_illegal_of_opcode h
    exact decode_of_unrecognized hwf
  | some op =>
    exact (higherDigitsAreIgnored (encode i) i (by simp [h])).mpr
      ⟨encode_nonneg h, Nat.mod_eq_of_lt (encode_toNat_lt h)⟩

/-- Settles O24: the sign, the opcode, and then the mode digits decide. -/
theorem everyWordFallsInOneClass : Obligations.EveryWordFallsInOneClass := by
  intro w
  refine ⟨decode_of_neg, fun _ => decode_of_unlisted, fun h0 h => ⟨?_, fun hle => ?_⟩⟩
  · rintro ⟨k, hk, hd⟩
    exact decode_of_mode_digit_above_two h0 h hk hd
  · obtain hlegal | ⟨_, d, hd, hd3⟩ := decode_reads h0 h
    · exact hlegal
    · obtain ⟨k, hk, rfl⟩ := mem_modeDigits.mp hd
      have := hle k hk
      omega

end Sys2Proof

namespace Sys2Proof.Machine

/-- The Step of a running machine at a word with an illegal mode (60_exceptions.md R152). -/
theorem step_of_illegalMode {s : State} {w v : Word} (hrun : s.run = .running) (hw : s.Holds s.pc.toInt w)
    (hd : decode w = .error (.illegalMode v)) : step s = .next (s.errorHalt .illegalMode v.toInt) := by
  simp [step, cycle, hrun, State.fetchDecode, State.holds_iff.mpr hw, hd, bind, Except.bind,
    State.raise_eq_errorHalt, Trap.cause, Trap.info]

/-- Settles O19: the decoder rejects the word, and the Step takes the exception. -/
theorem usedModeDigitAboveTwoIsIllegalMode : Obligations.UsedModeDigitAboveTwoIsIllegalMode := by
  intro w k h0 h hk hd
  have he := decode_of_mode_digit_above_two h0 h hk hd
  exact ⟨he, fun s hrun hw => step_of_illegalMode hrun hw he⟩

end Sys2Proof.Machine

namespace Sys2Proof

/-- Settles O25: each word is evaluated. -/
theorem writtenOutWordsDecode : Obligations.WrittenOutWordsDecode := by
  unfold Obligations.WrittenOutWordsDecode
  decide

end Sys2Proof
end

section
/-! PROOFS. The instruction cycle (40_cycle_and_operands.md R80 to R82, R89 to R91): the ways a Step ends, the
fetch, and many Steps in a row. -/

namespace Sys2Proof.Machine

/-! ### Fetch and decode -/

/-- Settles O18: of the three things the Step of a running machine can do, two have a word at `pc`. -/
theorem fetchOutsideMemoryFaults : Obligations.FetchOutsideMemoryFaults := by
  intro s hrun ho
  obtain ⟨w, i, hw, _⟩ | ⟨w, v, hw, _⟩ | ⟨_, hstep⟩ := step_of_running hrun
  · exact absurd ho hw.not_outside
  · exact absurd ho hw.not_outside
  · rw [hstep, State.raise_addressOutOfRange]

/-- A word that decodes to ILLEGAL selects no instruction (30_encoding.md R67, R68). -/
theorem unrecognized_of_decode_illegal {w v : Word} (h : decode w = .ok (.illegal v)) : unrecognized w = true := by
  by_contra hun
  obtain ⟨hneg, hlisted⟩ := not_or.mp (unrecognized_iff.not.mp hun)
  obtain ⟨i, hi, hop, _⟩ | ⟨he, _⟩ := decode_reads (not_lt.mp hneg) (not_not.mp hlisted)
  · obtain rfl : i = .illegal v := by simpa [hi] using h
    simp [Instr.opcode] at hop
  · simp [he] at h

/-- The decoder answers well-formed instructions only. -/
theorem wellFormed_of_decode {w : Word} {i : Instr} (h : decode w = .ok i) : i.wellFormed = true := by
  cases i with
  | illegal v =>
    obtain rfl := eq_of_decode_illegal h
    exact unrecognized_of_decode_illegal h
  | _ => rfl

/-- Settles O17: the decoder answers well-formed instructions, and a running machine runs its answer. -/
theorem stepRunsTheDecodedInstruction : Obligations.StepRunsTheDecodedInstruction :=
  fun _ _ _ hrun hw hd => ⟨wellFormed_of_decode hd, step_eq_exec hrun hw hd⟩

/-! ### The ways a Step ends -/

/-- The advance past an instruction of c operands as one sum: the width 1 + c (40_cycle_and_operands.md R89). -/
theorem State.advance_pc_width (s : State) (c : Nat) : (s.advance c).pc = wrap (s.pc.toInt + (1 + c : Nat)) := by
  rw [State.advance_pc, Nat.cast_add, Nat.cast_one, add_assoc]

/-- From s to t an instruction completed: the fault record is as before, and `pc` has moved past an
instruction of no, one or three operands, or a jump has set it (40_cycle_and_operands.md R89; 43_jumps.md
R120, R121). -/
def State.CompletesTo (s t : State) : Prop :=
  t.err = s.err ∧ t.cause = s.cause ∧ t.finfo = s.finfo ∧
    (t.pc = wrap (s.pc.toInt + 1) ∨ t.pc = wrap (s.pc.toInt + 2) ∨ t.pc = wrap (s.pc.toInt + 4) ∨
      ∃ m1 m2 a b w, s.SourceIs 1 m1 a ∧ s.SourceIs 2 m2 b ∧ s.Holds s.pc.toInt w ∧
        (decode w = .ok (.jt m1 m2) ∨ decode w = .ok (.jf m1 m2)) ∧
        (t.pc = b ∨ t.pc = wrap (s.pc.toInt + 3)))

/-- An effect is an exception, a stall on the source, a stall on the sink, or a completion. -/
theorem Effect.ending {w : Word} {i : Instr} {s t : State} (hw : s.Holds s.pc.toInt w) (hd : decode w = .ok i)
    (he : Effect i s t) :
    (∃ e, t = s.raise e) ∨ (s.source.answer = .notYet ∧ t = s.setSource s.source.waited) ∨
      (s.sink.answer = .notYet ∧ t = s.setSink s.sink.waited) ∨ s.CompletesTo t := by
  cases he with
  | outOfRange | inputFail | outputFail | illegal => exact .inl ⟨_, rfl⟩
  | inputWait _ _ _ _ ha => exact .inr (.inl ⟨ha, rfl⟩)
  | outputWait _ _ _ _ ha => exact .inr (.inr (.inl ⟨ha, rfl⟩))
  | halted => exact .inr (.inr (.inr ⟨rfl, rfl, rfl, .inl (s.halt.advance_pc_width 0)⟩))
  | input | output | adjusted =>
    exact .inr (.inr (.inr ⟨rfl, rfl, rfl, .inr (.inl (State.advance_pc_width _ 1))⟩))
  | stored => exact .inr (.inr (.inr ⟨rfl, rfl, rfl, .inr (.inr (.inl (State.advance_pc_width _ 3)))⟩))
  | jumped m1 m2 a b hi h1 h2 =>
    have hjump := hi.imp (fun h => h.1 ▸ hd) (fun h => h.1 ▸ hd)
    exact .inr (.inr (.inr ⟨rfl, rfl, rfl, .inr (.inr (.inr ⟨m1, m2, a, b, w, h1, h2, hw, hjump, .inl rfl⟩))⟩))
  | fellThrough m1 m2 a b hi h1 h2 =>
    have hjump := hi.imp (fun h => h.1 ▸ hd) (fun h => h.1 ▸ hd)
    exact .inr (.inr (.inr ⟨rfl, rfl, rfl, .inr (.inr (.inr ⟨m1, m2, a, b, w, h1, h2, hw, hjump,
      .inr (s.advance_pc_width 2)⟩))⟩))

/-- Settles O5: by what a Step can do, and how the effect of an instruction ends. -/
theorem everyStepEndsInOneOfFourWays : Obligations.EveryStepEndsInOneOfFourWays := by
  intro s
  obtain ⟨t, ht⟩ := step_answers s
  refine ⟨t, ht, ?_⟩
  have hraise (e : Trap) : ∃ c x, c ≠ Cause.none ∧ s.raise e = s.errorHalt c x :=
    ⟨_, _, e.cause_ne_none, s.raise_eq_errorHalt e⟩
  obtain hhalt | ⟨hrun, ⟨w, i, hw, hd, he⟩ | ⟨_, v, _, _, rfl⟩ | ⟨_, rfl⟩⟩ := step_cases ht
  · exact .inl hhalt
  · obtain ⟨e, rfl⟩ | hin | hout | hdone := he.ending hw hd
    · exact .inr (.inl ⟨hrun, hraise e⟩)
    · exact .inr (.inr (.inl ⟨hrun, hin⟩))
    · exact .inr (.inr (.inr (.inl ⟨hrun, hout⟩)))
    · exact .inr (.inr (.inr (.inr ⟨hrun, hdone⟩)))
  · exact .inr (.inl ⟨hrun, hraise (.illegalMode v)⟩)
  · exact .inr (.inl ⟨hrun, hraise (.addressOutOfRange s.pc.toInt)⟩)

/-! ### Many Steps -/

/-- A state that one Step leaves as it is stays as it is for ever. -/
theorem afterSteps_of_fixed {s : State} (h : step s = .next s) (k : Nat) : afterSteps k s = .next s := by
  induction k with
  | zero => rfl
  | succ k ih => rw [afterSteps_succ k h, ih]

/-- Run of a Halted machine returns at once (40_cycle_and_operands.md R90). -/
theorem runAtMost_of_halted {s : State} (h : s.run = .halted) (k : Nat) : runAtMost k s = .next s := by
  cases k with
  | zero => rfl
  | succ k => simp only [runAtMost, h]

/-- Run of a running machine is one Step and then Run. -/
theorem runAtMost_succ_of_running {s t : State} (hrun : s.run = .running) (h : step s = .next t) (k : Nat) :
    runAtMost (k + 1) s = runAtMost k t := by
  simp only [runAtMost, hrun, h]

/-- Settles O6: a Halted state is one that a Step leaves as it is, and Run returns at once from it. -/
theorem haltedMachineNeverMoves : Obligations.HaltedMachineNeverMoves :=
  fun _ h k => ⟨afterSteps_of_fixed (step_of_halted h) k, runAtMost_of_halted h k⟩

/-- Settles O14: by induction on the limit; where Run has stopped, no Step changes anything any more. -/
theorem runIsRepeatedStep : Obligations.RunIsRepeatedStep := by
  intro k s
  induction k generalizing s with
  | zero => rfl
  | succ k ih =>
    cases hrun : s.run with
    | halted => rw [runAtMost_of_halted hrun, afterSteps_of_fixed (step_of_halted hrun)]
    | running =>
      obtain ⟨t, ht⟩ := step_answers s
      rw [runAtMost_succ_of_running hrun ht, afterSteps_succ k ht, ih t]

end Sys2Proof.Machine
end

section
/-! PROOFS. Immediate destinations (40_cycle_and_operands.md R86), and an IN or OUT whose port has nothing to
answer (R91; 70_reset_and_hazards.md R188; 60_exceptions.md R167). -/

namespace Sys2Proof.Machine

/-! ### Immediate destinations -/

/-- A location does not tell immediate mode from position mode (40_cycle_and_operands.md R86). -/
theorem State.targetLocation_immediate (s : State) (i : Nat) :
    s.targetLocation i .immediate = s.targetLocation i .position := rfl

theorem computeStore_immediate (r : Word → Word → Word) (m1 m2 : Mode) (s : State) :
    computeStore r m1 m2 .immediate s = computeStore r m1 m2 .position s := by
  simp only [computeStore, State.targetLocation_immediate]

theorem execIn_immediate (s : State) : execIn .immediate s = execIn .position s := by
  simp only [execIn, State.targetLocation_immediate]

/-- Settles O30: the five instructions use their destination by its location only. -/
theorem immediateDestinationActsAsPosition : Obligations.ImmediateDestinationActsAsPosition := by
  intro s m1 m2
  have hstore (r : Word → Word → Word) : conclude s (computeStore r m1 m2 .immediate s) =
      conclude s (computeStore r m1 m2 .position s) := by rw [computeStore_immediate]
  exact ⟨hstore addWords, hstore mulWords, hstore lessThan, hstore equals, execIn_immediate s⟩

/-! ### A port with nothing to answer -/

/-- Once its listed answers are used up, a source answers its constant one. -/
theorem Source.answer_of_empty {q : Source} (h : q.answers = []) : q.answer = q.rest := by
  simp only [Source.answer, h]

/-- Once its listed answers are used up, a sink answers its constant one. -/
theorem Sink.answer_of_empty {q : Sink} (h : q.answers = []) : q.answer = q.rest := by
  simp only [Sink.answer, h]

/-- IN that waits withdraws the not-yet and nothing else. -/
theorem exec_inp_of_notYet {s : State} {m : Mode} {t : Int} (ht : s.TargetIs 1 m t)
    (ha : s.source.answer = .notYet) : exec (.inp m) s = .next (s.setSource s.source.waited) :=
  (execIn_of_target ht).trans (by rw [inputTo_notYet ha, conclude_stalled])

/-- IN with a value stores it, consumes it and advances by 2 (42_input_output.md R110). -/
theorem exec_inp_of_value {s : State} {m : Mode} {t : Int} {v : Word} (ht : s.TargetIs 1 m t)
    (ha : s.source.answer = .value v) : exec (.inp m) s =
      .next (((s.setMem (s.mem.setWord t.toNat v)).setSource s.source.delivered).advance 1) :=
  (execIn_of_target ht).trans (by rw [inputTo_value ht.1 ht.2.1 ha, conclude_completed])

/-- OUT that waits withdraws the not-yet and nothing else. -/
theorem exec_out_of_notYet {s : State} {m : Mode} {a : Word} (h : s.SourceIs 1 m a)
    (ha : s.sink.answer = .notYet) : exec (.out m) s = .next (s.setSink s.sink.waited) :=
  (execOut_of_source h).trans (by rw [outputOf_notYet ha, conclude_stalled])

/-- IN on a source that answers not-yet for ever leaves the state as it is. -/
theorem exec_inp_of_silent {s : State} {m : Mode} {t : Int} (ht : s.TargetIs 1 m t)
    (hq : s.source.answers = []) (hrest : s.source.rest = .notYet) : exec (.inp m) s = .next s := by
  rw [exec_inp_of_notYet ht ((Source.answer_of_empty hq).trans hrest), s.source.waited_of_empty hq]
  rfl

/-- OUT on a sink that answers not-yet for ever leaves the state as it is. -/
theorem exec_out_of_silent {s : State} {m : Mode} {a : Word} (h : s.SourceIs 1 m a)
    (hk : s.sink.answers = []) (hrest : s.sink.rest = .notYet) : exec (.out m) s = .next s := by
  rw [exec_out_of_notYet h ((Sink.answer_of_empty hk).trans hrest), s.sink.waited_of_empty hk]
  rfl

/-- Settles O40: the one Step leaves the state as it is, so any number of Steps does. -/
theorem endlessStallChangesNothing : Obligations.EndlessStallChangesNothing := by
  intro s w m k hrun hw
  refine ⟨fun hd ⟨t, ht⟩ hq hrest => ?_, fun hd ⟨a, ha⟩ hk hrest => ?_⟩
  · exact afterSteps_of_fixed ((step_eq_exec hrun hw hd).trans (exec_inp_of_silent ht hq hrest)) k
  · exact afterSteps_of_fixed ((step_eq_exec hrun hw hd).trans (exec_out_of_silent ha hk hrest)) k

/-! ### A value supplied to a waiting IN -/

/-- What the host supplies to a source with no answers left is the next answer (42_input_output.md R112). -/
theorem State.supplyInput_answer {s : State} (x : InputAnswer) (hq : s.source.answers = []) :
    (s.supplyInput x).source.answer = x := by
  simp [State.supplyInput, Source.answer, hq]

/-- A source that delivers its only answer is as it was before that answer was supplied, one Word consumed. -/
theorem State.supplyInput_delivered {s : State} (x : InputAnswer) (hq : s.source.answers = []) :
    (s.supplyInput x).source.delivered = { s.source with consumed := s.source.consumed + 1 } := by
  simp [State.supplyInput, Source.delivered, hq]

/-- A store leaves its word at its address and every other word as it was (20_memory.md R43). -/
theorem Memory.storedAt_setWord (m : Memory) (t : Int) (v : Word) : m.StoredAt (m.setWord t.toNat v) t v :=
  ⟨rfl, (m.word_setWord t.toNat t.toNat v).trans (if_pos rfl), fun _ h => Memory.word_setWord_other v h⟩

/-- Settles O41: first the source is silent, then its one answer is the Word supplied. -/
theorem stalledInCompletesWhenSupplied : Obligations.StalledInCompletesWhenSupplied := by
  intro s w v m t hrun hw hd ht hq hrest
  have hstep := calc
    step (s.supplyInput (.value v)) = exec (.inp m) (s.supplyInput (.value v)) := step_eq_exec hrun hw hd
    _ = .next ((((s.supplyInput (.value v)).setMem (s.mem.setWord t.toNat v)).setSource
          (s.supplyInput (.value v)).source.delivered).advance 1) :=
      exec_inp_of_value ht (State.supplyInput_answer (.value v) hq)
  exact ⟨(step_eq_exec hrun hw hd).trans (exec_inp_of_silent ht hq hrest), _, hstep,
    s.mem.storedAt_setWord t v, State.advance_pc_width _ 1, State.supplyInput_delivered (.value v) hq, hrun, rfl,
    rfl, rfl⟩

end Sys2Proof.Machine
end

section
/-! PROOFS. Placing an instruction where the next Step fetches it (log entry 8). -/

namespace Sys2Proof

theorem decodeTableWord_eq_some_iff {nbits w : Nat} {i : Instr} :
    decodeTableWord nbits w = some i ↔ decode (BitVec.ofNat 64 (w % 2 ^ nbits)) = .ok i := by
  unfold decodeTableWord
  split <;> simp_all

end Sys2Proof

namespace Sys2Proof.Machine

/-! ### Storing several words -/

/-- A word outside the stored ones reads as before. -/
theorem Memory.word_setWords_outside {m : Memory} {a b : Nat} {ws : List Word}
    (h : b < a ∨ a + ws.length ≤ b) : (m.setWords a ws).word b = m.word b := by
  induction ws generalizing m a with
  | nil => rfl
  | cons w rest ih =>
    rw [List.length_cons] at h
    rw [Memory.setWords, ih (by omega), Memory.word_setWord_other w (by omega)]

/-- The first of the stored words is read at their index. -/
theorem Memory.word_setWords_head (m : Memory) (a : Nat) (w : Word) (rest : List Word) :
    (m.setWords a (w :: rest)).word a = w := by
  rw [Memory.setWords, Memory.word_setWords_outside (.inl a.lt_succ_self), Memory.word_setWord, if_pos rfl]

/-! ### Where the words are placed -/

/-- There is room for four words at `pc`. -/
def State.HasRoom (s : State) : Prop := 0 ≤ s.pc.toInt ∧ s.pc.toInt + 4 ≤ s.mem.capacity

/-- Wherever the words are placed, the machine runs there, at an index with room for four words. -/
theorem State.placeAtFetch_spec (s : State) (ws : List Word) :
    ∃ (a : Nat) (m : Memory), a < 2 ^ 63 ∧ a + 4 ≤ m.capacity ∧ (s.placeAtFetch ws).run = .running ∧
      (s.placeAtFetch ws).pc = BitVec.ofNat 64 a ∧ (s.placeAtFetch ws).mem = m.setWords a ws := by
  by_cases h : s.HasRoom
  · obtain ⟨h0, hN⟩ := h
    have hlt := toNat_lt_of_nonneg h0.not_gt
    have hval := toInt_eq_toNat h0.not_gt
    refine ⟨s.pc.toNat, s.mem, hlt, by omega, ?_⟩
    cases hrun : s.run <;> simp [State.placeAtFetch, hrun, h0, hN]
  · refine ⟨0, { s.mem with capacity := max s.mem.capacity 4 }, by decide, by simp, ?_⟩
    have hfits : (decide (0 ≤ s.pc.toInt) && decide (s.pc.toInt + 4 ≤ s.mem.capacity)) = false := by
      simpa [State.HasRoom] using h
    cases hrun : s.run <;> simp [State.placeAtFetch, hrun, hfits]

/-- With room at `pc` a running machine changes in memory only. -/
theorem State.placeAtFetch_of_hasRoom {s : State} (hrun : s.run = .running) (h : s.HasRoom) (ws : List Word) :
    s.placeAtFetch ws = s.setMem (s.mem.setWords s.pc.toNat ws) := by
  obtain ⟨h0, hN⟩ := h
  simp [State.placeAtFetch, hrun, h0, hN, State.setPc, State.setMem]

/-- The first of the words placed is the one the next Step fetches. -/
theorem State.placeAtFetch_holds (s : State) (w : Word) (rest : List Word) :
    (s.placeAtFetch (w :: rest)).Holds (s.placeAtFetch (w :: rest)).pc.toInt w := by
  obtain ⟨a, m, hlt, hroom, _, hpc, hmem⟩ := s.placeAtFetch_spec (w :: rest)
  have hval : (BitVec.ofNat 64 a).toInt = a := by
    rw [BitVec.toInt_ofNat', Int.bmod_eq_of_le (by omega) (by omega)]
  rw [State.Holds, hpc, hmem, hval, Memory.setWords_capacity, Int.toNat_natCast]
  exact ⟨by omega, by omega, m.word_setWords_head a w rest⟩

theorem State.placeAtFetch_run (s : State) (ws : List Word) : (s.placeAtFetch ws).run = .running := by
  obtain ⟨_, _, _, _, hrun, _⟩ := s.placeAtFetch_spec ws
  exact hrun

/-- Settles O26: the word fetched is the one the table's reader decodes; with room at `pc` only the words
from there on are stored. -/
theorem placedInstructionRunsNext : Obligations.PlacedInstructionRunsNext := by
  intro s nbits w i hi
  refine ⟨step_eq_exec (s.placeAtFetch_run _) (s.placeAtFetch_holds _ _) (decodeTableWord_eq_some_iff.mp hi),
    fun hrun h0 hN => ⟨_, s.placeAtFetch_of_hasRoom hrun ⟨h0, hN⟩ _, Memory.setWords_capacity _ _ _, ?_⟩⟩
  intro a ha
  have hval := toInt_eq_toNat h0.not_gt
  exact Memory.word_setWords_outside (by simp only [instructionWords, List.length_cons, List.length_nil]; omega)

end Sys2Proof.Machine
end

section
/-! PROOFS. The rule that ADD, MUL, LT and EQ share (40_cycle_and_operands.md R92), and the arithmetic
instructions (41_arithmetic.md R100, R101). -/

namespace Sys2Proof.Machine

/-- A store and the advance past an instruction of c operands as one next state. -/
theorem State.setMem_advance (s : State) (m : Memory) (c : Nat) :
    (s.setMem m).advance c = { s with pc := wrap (s.pc.toInt + (1 + c : Nat)), mem := m } := by
  rw [← State.advance_pc_width]
  rfl

/-- An instruction whose meaning is `computeStore` follows the shared rule: the next state when the operands
resolve, and the exception at each operand. -/
theorem computesAndStores_of_exec {i : Instr} {m1 m2 m3 : Mode} {r : Word → Word → Word} {s : State}
    (hexec : exec i s = conclude s (computeStore r m1 m2 m3 s)) : ComputesAndStores i m1 m2 m3 r s := by
  refine ⟨fun a b t h1 h2 h3 => ⟨s.mem.setWord t.toNat (r a b), ?_, s.mem.storedAt_setWord t (r a b)⟩,
    fun x h1 => ?_, fun a x h1 h2 => ?_, fun a b x h1 h2 h3 => ?_⟩
  · rw [hexec, computeStore_completes h1 h2 h3, conclude_completed]
    exact congrArg Host.Outcome.next (s.setMem_advance (s.mem.setWord t.toNat (r a b)) 3)
  · rw [hexec, computeStore_fault1 h1, conclude_error, State.raise_addressOutOfRange]
  · rw [hexec, computeStore_fault2 h1 h2, conclude_error, State.raise_addressOutOfRange]
  · rw [hexec, computeStore_fault3 h1 h2 h3, conclude_error, State.raise_addressOutOfRange]

/-- The word of a three-operand opcode is the decimal number of the opcode and its modes (30_encoding.md R61). -/
theorem composite_modes_toNat {op : Nat} (hop : op < 100) (m1 m2 m3 : Mode) :
    (composite op m1.digit m2.digit m3.digit).toNat =
      op + 100 * m1.digit + 1000 * m2.digit + 10000 * m3.digit :=
  composite_toNat hop _ _ _ m1.digit_le m2.digit_le m3.digit_le

/-- The meaning of ADD is compute-and-store with the adder. -/
theorem exec_add (m1 m2 m3 : Mode) (s : State) :
    exec (.add m1 m2 m3) s = conclude s (computeStore addWords m1 m2 m3 s) := rfl

/-- The meaning of MUL is compute-and-store with the multiplier. -/
theorem exec_mul (m1 m2 m3 : Mode) (s : State) :
    exec (.mul m1 m2 m3) s = conclude s (computeStore mulWords m1 m2 m3 s) := rfl

/-- Settles O28: both instructions follow the shared rule, with the wrapped sum and the wrapped product. -/
theorem addAndMulStoreTheWrappedResult : Obligations.AddAndMulStoreTheWrappedResult := fun s m1 m2 m3 =>
  ⟨composite_modes_toNat (by decide) m1 m2 m3, computesAndStores_of_exec (exec_add m1 m2 m3 s),
    composite_modes_toNat (by decide) m1 m2 m3, computesAndStores_of_exec (exec_mul m1 m2 m3 s)⟩

end Sys2Proof.Machine
end

section
/-! PROOFS. IN and OUT, each by the answer of its port (42_input_output.md R110, R111), and what any number of
Steps adds to the records of the ports (R112, R113). -/

namespace Sys2Proof.Machine

/-- The word of a one-operand opcode is the decimal number of the opcode and its mode (30_encoding.md R61). -/
theorem composite_mode_toNat {op : Nat} (hop : op < 100) (m : Mode) :
    (composite op m.digit 0 0).toNat = op + 100 * m.digit :=
  composite_toNat hop _ 0 0 m.digit_le (Nat.zero_le 2) (Nat.zero_le 2)

/-- Past an instruction of one operand `pc` is 2 further (40_cycle_and_operands.md R89). -/
theorem State.advance_one (s : State) : s.advance 1 = { s with pc := wrap (s.pc.toInt + 2) } := by
  rw [State.advance, add_assoc]
  rfl

/-! ### IN -/

/-- IN on a failed source raises InputFailure (60_exceptions.md R154). -/
theorem exec_inp_of_failure {s : State} {m : Mode} {t : Int} (ht : s.TargetIs 1 m t)
    (ha : s.source.answer = .failure) : exec (.inp m) s = .next (s.errorHalt .inputFailure 0) :=
  (execIn_of_target ht).trans (by rw [inputTo_failure ha, conclude_error, State.raise_eq_errorHalt]; rfl)

/-- Settles O31: by the source's answer once the location is known; the address is checked before the source is
asked. -/
theorem inStoresOneConsumedValue : Obligations.InStoresOneConsumedValue := by
  intro s m
  refine ⟨composite_mode_toNat (by decide) m, fun t v ht ha => ?_, fun _ ht ha => exec_inp_of_notYet ht ha,
    fun _ ht ha => exec_inp_of_failure ht ha, fun _ hx => execIn_of_fault hx⟩
  refine ⟨s.mem.setWord t.toNat v, ?_, s.mem.storedAt_setWord t v⟩
  rw [exec_inp_of_value ht ha, State.advance_one]
  rfl

/-! ### OUT -/

/-- OUT on a sink that accepts produces its operand and advances by 2 (42_input_output.md R111). -/
theorem exec_out_of_accepted {s : State} {m : Mode} {a : Word} (h : s.SourceIs 1 m a)
    (ha : s.sink.answer = .accepted) : exec (.out m) s = .next ((s.setSink (s.sink.took a)).advance 1) :=
  (execOut_of_source h).trans (by rw [outputOf_accepted ha, conclude_completed])

/-- OUT on a failed sink raises OutputFailure (60_exceptions.md R155). -/
theorem exec_out_of_failure {s : State} {m : Mode} {a : Word} (h : s.SourceIs 1 m a)
    (ha : s.sink.answer = .failure) : exec (.out m) s = .next (s.errorHalt .outputFailure 0) :=
  (execOut_of_source h).trans (by rw [outputOf_failure ha, conclude_error, State.raise_eq_errorHalt]; rfl)

/-- Settles O32: by the sink's answer once the operand is read; the address is checked before the sink is used. -/
theorem outProducesItsValue : Obligations.OutProducesItsValue := by
  intro s m
  refine ⟨composite_mode_toNat (by decide) m, fun a h ha => ?_, fun _ h ha => exec_out_of_notYet h ha,
    fun _ h ha => exec_out_of_failure h ha, fun _ hx => execOut_of_fault hx⟩
  rw [exec_out_of_accepted h ha, State.advance_one]
  rfl

/-! ### The records of the ports over many Steps -/

/-- From s to t the accepted outputs were only added to, and they and the count of consumed inputs grew by at
most k (42_input_output.md R112, R113). -/
structure State.RecordsGrow (k : Nat) (s t : State) : Prop where
  accepted_prefix : s.sink.accepted <+: t.sink.accepted
  accepted_length : t.sink.accepted.length ≤ s.sink.accepted.length + k
  consumed_ge : s.source.consumed ≤ t.source.consumed
  consumed_le : t.source.consumed ≤ s.source.consumed + k

theorem State.RecordsGrow.refl (s : State) : s.RecordsGrow 0 s :=
  ⟨List.prefix_rfl, le_rfl, le_rfl, le_rfl⟩

theorem State.RecordsGrow.trans {j k : Nat} {s t u : State} (h : s.RecordsGrow j t) (h' : t.RecordsGrow k u) :
    s.RecordsGrow (k + j) u where
  accepted_prefix := h.accepted_prefix.trans h'.accepted_prefix
  accepted_length := by have := h.accepted_length; have := h'.accepted_length; omega
  consumed_ge := h.consumed_ge.trans h'.consumed_ge
  consumed_le := by have := h.consumed_le; have := h'.consumed_le; omega

/-- One Step adds at most one accepted output, at the end, and consumes at most one input (10_state.md R34). -/
theorem step_recordsGrow {s t : State} (h : step s = .next t) : s.RecordsGrow 1 t := by
  obtain ⟨_, _, hconsumed, haccepted⟩ := portsMoveOnlyByInAndOut s t h
  have hout : ∃ vs, vs.length ≤ 1 ∧ s.sink.accepted ++ vs = t.sink.accepted := by
    obtain hk | ⟨_, _, _, v, _, _, _, hk⟩ := haccepted
    · exact ⟨[], Nat.zero_le 1, by rw [hk, List.append_nil]⟩
    · exact ⟨[v], le_rfl, hk.symm⟩
  have hin : s.source.consumed ≤ t.source.consumed ∧ t.source.consumed ≤ s.source.consumed + 1 := by
    obtain hq | ⟨hq, _⟩ := hconsumed <;> omega
  obtain ⟨vs, hlen, hvs⟩ := hout
  exact ⟨⟨vs, hvs⟩, by rw [← hvs, List.length_append]; omega, hin.1, hin.2⟩

/-- k Steps grow the records of the ports by at most k. -/
theorem afterSteps_recordsGrow (k : Nat) {s t : State} (h : afterSteps k s = .next t) : s.RecordsGrow k t := by
  induction k generalizing s with
  | zero => exact (Host.Outcome.next.inj h : s = t) ▸ .refl s
  | succ k ih =>
    obtain ⟨u, hu⟩ := step_answers s
    exact (step_recordsGrow hu).trans (ih ((afterSteps_succ k hu).symm.trans h))

/-- Settles O12: by induction on the number of Steps, each adding at most one to either record. -/
theorem acceptedOutputIsNeverLost : Obligations.AcceptedOutputIsNeverLost := fun k _ _ h =>
  have hg := afterSteps_recordsGrow k h
  ⟨hg.accepted_prefix, hg.accepted_length, hg.consumed_ge, hg.consumed_le⟩

end Sys2Proof.Machine
end

section
/-! PROOFS. The rule that JT and JF share, and the Step after a jump out of memory (43_jumps.md R120 to R122). -/

namespace Sys2Proof.Machine

/-- Past an instruction of two operands `pc` is 3 further (40_cycle_and_operands.md R89). -/
theorem State.advance_two (s : State) : s.advance 2 = { s with pc := wrap (s.pc.toInt + 3) } := by
  rw [State.advance, add_assoc]
  rfl

/-- The word of a two-operand opcode is the decimal number of the opcode and its modes (30_encoding.md R61). -/
theorem composite_two_modes_toNat {op : Nat} (hop : op < 100) (m1 m2 : Mode) :
    (composite op m1.digit m2.digit 0).toNat = op + 100 * m1.digit + 1000 * m2.digit :=
  composite_toNat hop _ _ 0 m1.digit_le m2.digit_le (Nat.zero_le 2)

/-- A Word is 0 exactly when its value is 0 (00_scope.md R8). -/
theorem word_toInt_eq_zero_iff {a : Word} : a.toInt = 0 ↔ a = 0 :=
  BitVec.toInt_inj (y := 0)

/-- JT's test in the words of the claims (44_compare.md R132). -/
theorem isTrue_iff_toInt (a : Word) : isTrue a = true ↔ a.toInt ≠ 0 :=
  (isTrue_iff a).trans word_toInt_eq_zero_iff.not.symm

/-- JF's test in the words of the claims (44_compare.md R132). -/
theorem not_isTrue_iff_toInt (a : Word) : (!isTrue a) = true ↔ a.toInt = 0 := by
  rw [Bool.not_eq_true', ← Bool.not_eq_true, isTrue_iff_toInt, not_not]

/-- An instruction whose meaning is `conditionalJump` follows the shared rule: the next state for either answer
of its test, and the exception at each operand, whatever the test would answer. -/
theorem jumpsWhen_of_exec {i : Instr} {m1 m2 : Mode} {f : Word → Bool} {taken : Word → Prop} {s : State}
    (hexec : exec i s = conclude s (conditionalJump f m1 m2 s)) (htest : ∀ a, f a = true ↔ taken a) :
    JumpsWhen i m1 m2 taken s := by
  refine ⟨fun a b h1 h2 => ⟨fun ha => ?_, fun ha => ?_⟩, fun x h1 => ?_, fun a x h1 h2 => ?_⟩
  · rw [hexec, conditionalJump_completes h1 h2, if_pos ((htest a).mpr ha), conclude_completed, State.setPc]
  · rw [hexec, conditionalJump_completes h1 h2, if_neg ((htest a).not.mpr ha), conclude_completed, State.advance_two]
  · rw [hexec, conditionalJump_fault1 h1, conclude_error, State.raise_addressOutOfRange]
  · rw [hexec, conditionalJump_fault2 h1 h2, conclude_error, State.raise_addressOutOfRange]

/-- The meaning of JT is a jump on a value other than 0. -/
theorem exec_jt (m1 m2 : Mode) (s : State) :
    exec (.jt m1 m2) s = conclude s (conditionalJump isTrue m1 m2 s) := rfl

/-- The meaning of JF is a jump on 0. -/
theorem exec_jf (m1 m2 : Mode) (s : State) :
    exec (.jf m1 m2) s = conclude s (conditionalJump (fun a => !isTrue a) m1 m2 s) := rfl

/-- Settles O33: both instructions follow the shared rule, each with its own test. -/
theorem jumpsTakeExactlyTheirTarget : Obligations.JumpsTakeExactlyTheirTarget := fun s m1 m2 =>
  ⟨composite_two_modes_toNat (by decide) m1 m2, jumpsWhen_of_exec (exec_jt m1 m2 s) isTrue_iff_toInt,
    composite_two_modes_toNat (by decide) m1 m2, jumpsWhen_of_exec (exec_jf m1 m2 s) not_isTrue_iff_toInt⟩

/-- The Step of a taken jump leaves `pc` at the target and all else as it was (43_jumps.md R120, R121). -/
theorem step_of_taken_jump {s : State} {w a b : Word} {m1 m2 : Mode} (hrun : s.run = .running)
    (hw : s.Holds s.pc.toInt w) (hd : decode w = .ok (.jt m1 m2) ∧ a ≠ 0 ∨ decode w = .ok (.jf m1 m2) ∧ a = 0)
    (h1 : s.SourceIs 1 m1 a) (h2 : s.SourceIs 2 m2 b) : step s = .next { s with pc := b } := by
  obtain ⟨_, ⟨hjt, _⟩, _, hjf, _⟩ := jumpsTakeExactlyTheirTarget s m1 m2
  obtain ⟨hd, ha⟩ | ⟨hd, ha⟩ := hd
  · exact (step_eq_exec hrun hw hd).trans ((hjt a b h1 h2).1 (word_toInt_eq_zero_iff.not.mpr ha))
  · exact (step_eq_exec hrun hw hd).trans ((hjf a b h1 h2).1 (word_toInt_eq_zero_iff.mpr ha))

/-- Settles O39: the jump itself does not look at its target; the fetch of the Step after it does. -/
theorem badJumpTargetFaultsAtTheNextFetch : Obligations.BadJumpTargetFaultsAtTheNextFetch :=
  fun s _ _ b _ _ hrun hw hd h1 h2 hout =>
    ⟨{ s with pc := b }, step_of_taken_jump hrun hw hd h1 h2, rfl,
      fetchOutsideMemoryFaults { s with pc := b } hrun hout⟩

end Sys2Proof.Machine
end

section
/-! PROOFS. The comparisons LT and EQ (44_compare.md R130, R131), by the rule they share with ADD and MUL. -/

namespace Sys2Proof.Machine

/-- The Word of a decided test is 1 where the test holds and 0 elsewhere (44_compare.md R132). -/
theorem truthWord_decide (p : Prop) [Decidable p] : truthWord (decide p) = if p then 1 else 0 := by
  simp only [truthWord, decide_eq_true_eq]

/-- LT's result in the words of the claims (44_compare.md R130). -/
theorem lessThan_eq_ite : lessThan = fun a b => if a.toInt < b.toInt then 1 else 0 :=
  funext₂ fun _ _ => truthWord_decide _

/-- EQ's result in the words of the claims: identity of Words is equality of their values (44_compare.md R131). -/
theorem equals_eq_ite : equals = fun a b => if a.toInt = b.toInt then 1 else 0 := by
  funext a b
  rw [equals, truthWord_decide]
  simp only [BitVec.toInt_inj]

/-- The meaning of LT is compute-and-store with the signed order. -/
theorem exec_lt (m1 m2 m3 : Mode) (s : State) :
    exec (.lt m1 m2 m3) s = conclude s (computeStore lessThan m1 m2 m3 s) := rfl

/-- The meaning of EQ is compute-and-store with the test for identity. -/
theorem exec_eq (m1 m2 m3 : Mode) (s : State) :
    exec (.eq m1 m2 m3) s = conclude s (computeStore equals m1 m2 m3 s) := rfl

/-- Settles O29: both instructions follow the shared rule, with the truth word of their own test. -/
theorem ltAndEqStoreOneOrZero : Obligations.LtAndEqStoreOneOrZero := by
  intro s m1 m2 m3
  rw [← lessThan_eq_ite, ← equals_eq_ite]
  exact ⟨composite_modes_toNat (by decide) m1 m2 m3, computesAndStores_of_exec (exec_lt m1 m2 m3 s),
    composite_modes_toNat (by decide) m1 m2 m3, computesAndStores_of_exec (exec_eq m1 m2 m3 s)⟩

end Sys2Proof.Machine
end

section
/-! PROOFS. ARB, HLT and the words of no opcode (45_base_halt_illegal.md R140 to R142). -/

namespace Sys2Proof.Machine

/-! ### ILLEGAL -/

/-- The low two digits that are no opcode (30_encoding.md R68). -/
theorem not_listed_of_eq_zero_or_le {d : Nat} (h : d = 0 ∨ 10 ≤ d ∧ d ≤ 98) : d ∉ listedOpcodes := by
  simp only [listedOpcodes, List.mem_cons, List.not_mem_nil, or_false]
  omega

/-- ILLEGAL raises IllegalOpcode with its word (45_base_halt_illegal.md R142). -/
theorem exec_illegal (w : Word) (s : State) :
    exec (.illegal w) s = .next (s.errorHalt .illegalOpcode w.toInt) := rfl

/-- Settles O20: each of the three kinds of word decodes to ILLEGAL, and a running machine runs what it decodes. -/
theorem unrecognizedWordIsIllegalOpcode : Obligations.UnrecognizedWordIsIllegalOpcode := by
  intro w h
  have hd : decode w = .ok (.illegal w) :=
    h.elim decode_of_neg fun hdigits => decode_of_unlisted (not_listed_of_eq_zero_or_le hdigits)
  exact ⟨hd, fun s => ⟨exec_illegal w s, fun hrun hw => (step_eq_exec hrun hw hd).trans (exec_illegal w s)⟩⟩

/-! ### ARB -/

/-- The next state of ARB: the wrapped sum in `rbo`, and `pc` past one operand (45_base_halt_illegal.md R140). -/
theorem State.setRbo_advance_one (s : State) (v : Word) :
    (s.setRbo v).advance 1 = { s with rbo := v, pc := wrap (s.pc.toInt + 2) } := by
  rw [State.advance_one]
  rfl

/-- An instruction that changes `rbo` is an ARB (45_base_halt_illegal.md R140). -/
theorem eq_arb_of_exec_rbo_ne {i : Instr} {s t : State} (h : exec i s = .next t) (hne : t.rbo ≠ s.rbo) :
    ∃ m, i = .arb m := by
  obtain hr | ⟨m, _, hi, _⟩ := (exec_cases h).rbo
  · exact absurd hr hne
  · exact ⟨m, hi⟩

/-- Settles O34: of the effects ARB's alone writes `rbo`; its operand is read, or is the exception. -/
theorem arbAddsToTheBase : Obligations.ArbAddsToTheBase := by
  refine ⟨fun _ _ _ h hne => eq_arb_of_exec_rbo_ne h hne, fun s m => ⟨composite_mode_toNat (by decide) m,
    fun a ha => ?_, fun _ hx => execArb_of_fault hx⟩⟩
  rw [← State.setRbo_advance_one]
  exact execArb_of_source ha

/-! ### HLT -/

/-- A non-negative word with low digits 99 is HLT, whatever its other digits: HLT has no mode
(45_base_halt_illegal.md R141, 30_encoding.md R70). -/
theorem decode_of_low_digits_99 {w : Word} (h0 : 0 ≤ w.toInt) (h : w.toNat % 100 = 99) : decode w = .ok .hlt :=
  (decode_eq_ok_iff rfl).mpr ⟨h0, h, rfl⟩

/-- HLT halts and moves `pc` past its one word (45_base_halt_illegal.md R141). -/
theorem exec_hlt (s : State) :
    exec .hlt s = .next { s with run := .halted, pc := wrap (s.pc.toInt + 1) } := by
  rw [← add_zero (s.pc.toInt + 1)]
  rfl

/-- Settles O35: HLT answers one Halted state, and no Step moves a Halted machine. -/
theorem hltHaltsCleanly : Obligations.HltHaltsCleanly := by
  refine ⟨by decide, fun _ => decode_of_low_digits_99, fun s => ⟨exec_hlt s, fun t k h => ?_⟩⟩
  have hhalted : t.run = .halted := by
    obtain rfl := Host.Outcome.next.inj ((exec_hlt s).symm.trans h)
    rfl
  exact (haltedMachineNeverMoves t hhalted k).1

end Sys2Proof.Machine
end

section
/-! PROOFS. The fault record over many Steps, and the memory as the host reads it (60_exceptions.md R159, R167). -/

namespace Sys2Proof.Machine

/-! ### The fault record -/

/-- j + m Steps are j Steps and then m more. -/
theorem afterSteps_add (j m : Nat) {s u : State} (h : afterSteps j s = .next u) :
    afterSteps (j + m) s = afterSteps m u := by
  induction j generalizing s with
  | zero => rw [Nat.zero_add, (Host.Outcome.next.inj h : s = u)]
  | succ j ih =>
    obtain ⟨v, hv⟩ := step_answers s
    rw [Nat.succ_add, afterSteps_succ (j + m) hv]
    exact ih ((afterSteps_succ j hv).symm.trans h)

/-- With the error flag set the machine is Halted (10_state.md R26), so that no Step changes anything
(60_exceptions.md R159). -/
theorem State.Inv.afterSteps_of_err {s : State} (hs : s.Inv) (herr : s.err = true) (k : Nat) :
    afterSteps k s = .next s :=
  (haltedMachineNeverMoves s (hs.errHalted herr) k).1

/-- A run that ends with no fault recorded is safe at each of its Steps: a fault recorded on the way would still
be there at the end (60_exceptions.md R159). -/
theorem SafeRun.of_le {j k : Nat} {s t : State} (hs : s.Inv) (h : SafeRun k s t) (hj : j ≤ k) :
    ∃ u, SafeRun j s u ∧ u.Inv := by
  obtain ⟨ht, hclean⟩ := h
  obtain ⟨m, rfl⟩ := Nat.exists_eq_add_of_le hj
  obtain ⟨u, hu⟩ := afterSteps_answers j s
  have huInv : u.Inv := afterSteps_keeps everyStepKeepsTheInvariant j hs hu
  have hrest : afterSteps m u = .next t := (afterSteps_add j m hu).symm.trans ht
  refine ⟨u, ⟨hu, Bool.eq_false_iff.mpr fun herr => ?_⟩, huInv⟩
  obtain rfl : u = t := Host.Outcome.next.inj ((huInv.afterSteps_of_err herr m).symm.trans hrest)
  exact nomatch herr.symm.trans hclean

/-- Settles O7: an error-halted machine is fixed, reset writes an empty record, and a run that ends with an empty
record passes only states of the invariant with an empty one. -/
theorem faultRecordIsSticky : Obligations.FaultRecordIsSticky := by
  intro k s t hs h
  refine ⟨fun herr => ?_, fun n program u hu => ?_, fun hclean j hj => ?_⟩
  · exact Host.Outcome.next.inj (h.symm.trans (hs.afterSteps_of_err herr k))
  · obtain ⟨_, rfl⟩ := construct_eq_some_iff.mp hu
    exact ⟨rfl, rfl, rfl⟩
  · obtain ⟨u, hu, huInv⟩ := SafeRun.of_le hs ⟨h, hclean⟩ hj
    exact ⟨u, hu, huInv.record.cause_eq_none_iff.mpr hu.2⟩

/-! ### Read memory -/

/-- The host reads the word of an index in memory, and is refused outside. -/
theorem State.readMemory_cases (s : State) (a : Int) :
    (∃ v, s.Holds a v ∧ s.readMemory a = some v) ∨ (s.Outside a ∧ s.readMemory a = none) := by
  by_cases hin : s.mem.inRange a = true
  · obtain ⟨h0, hN⟩ := Memory.inRange_iff.mp hin
    exact .inl ⟨_, ⟨h0, hN, rfl⟩, if_pos hin⟩
  · have hout : ¬ (0 ≤ a ∧ a < s.mem.capacity) := fun h => hin (Memory.inRange_iff.mpr h)
    exact .inr ⟨by unfold State.Outside; omega, if_neg hin⟩

/-- Settles O44: an index is in memory or outside it, never both, and in memory it holds one word. -/
theorem hostReadsMemoryInRange : Obligations.HostReadsMemoryInRange := by
  intro s a v
  obtain ⟨w, hw, hread⟩ | ⟨ho, hread⟩ := s.readMemory_cases a
  · rw [hread]
    exact ⟨⟨fun h => Option.some.inj h ▸ hw, fun hv => congrArg some (hw.unique hv)⟩,
        nofun, fun ho => absurd ho hw.not_outside⟩
  · rw [hread]
    exact ⟨⟨nofun, fun hv => absurd ho hv.not_outside⟩, fun _ => ho, fun _ => rfl⟩

end Sys2Proof.Machine
end

section
/-! PROOFS. The precondition of reset, and what reset of a block keeps (70_reset_and_hazards.md R180 to R182). -/

namespace Sys2Proof.Machine

/-- Reset is refused exactly when PROGRAM is longer than N or N is above the bound (70_reset_and_hazards.md R181). -/
theorem construct_eq_none_iff {n : Nat} {program : List Word} {source : Source} {sink : Sink} :
    construct n program source sink = none ↔ n < program.length ∨ Config.maxCapacity < n := by
  simp [construct, imp_iff_not_or]

/-- The memory after reset reads as PROGRAM, and 0 past its end (10_state.md R33). -/
theorem word_of_construct {n : Nat} {program : List Word} {source : Source} {sink : Sink} {s : State}
    (h : construct n program source sink = some s) (a : Nat) : s.mem.word a = program.getD a 0 := by
  obtain ⟨_, rfl⟩ := construct_eq_some_iff.mp h
  simpa [Memory.word] using lookup_imageCells 0 a program

/-- Reset reads nothing of the block but its ports (70_reset_and_hazards.md R182). -/
theorem State.resetAgain_congr {s s' : State} (hsource : s'.source = s.source) (hsink : s'.sink = s.sink)
    (n : Nat) (program : List Word) : s'.resetAgain n program = s.resetAgain n program :=
  congrArg₂ (construct n program) hsource hsink

/-- Settles O42: a reset that is not refused answers the one state of R180, with the ports of the block. -/
theorem resetOfABlockForgetsItsState : Obligations.ResetOfABlockForgetsItsState := by
  intro s t n program h
  have hword := word_of_construct h
  have hports (s' : State) (hsource : s'.source = s.source) (hsink : s'.sink = s.sink) :
      s'.resetAgain n program = some t := (State.resetAgain_congr hsource hsink n program).trans h
  obtain ⟨_, rfl⟩ := construct_eq_some_iff.mp h
  exact ⟨rfl, rfl, rfl, rfl, rfl, rfl, rfl, rfl, hword, hports⟩

/-- In the memory of no words every index is outside (20_memory.md R44). -/
theorem State.outside_of_capacity_zero {s : State} (h : s.mem.capacity = 0) (a : Int) : s.Outside a := by
  unfold State.Outside
  omega

/-- Settles O2: the precondition negated; and the machine of no words fetches outside its memory at `pc` = 0. -/
theorem resetIsRefusedOutsideItsPrecondition : Obligations.ResetIsRefusedOutsideItsPrecondition := by
  intro n program source sink
  refine ⟨construct_eq_none_iff, _, construct_eq_some_iff.mpr ⟨⟨le_refl 0, Nat.zero_le _⟩, rfl⟩, ?_⟩
  exact fetchOutsideMemoryFaults _ rfl (State.outside_of_capacity_zero rfl _)

end Sys2Proof.Machine
end
